-- ==== Sys2Proof/Word.lean ====
section
/-! DEFINITION. The widths of the engine's values (00_scope.md R3, R4). -/

namespace Sys2Proof

/-- A datapath value: 32 bits, unsigned, bit 0 least significant (00_scope.md R4). -/
abbrev Word := BitVec 32

/-- A message byte: 8 bits, unsigned (00_scope.md R4). -/
abbrev Byte := BitVec 8

/-- An operation word: 35 bits (30_encoding.md R45). -/
abbrev OpWord := BitVec 35

/-- A host register number: 3 bits (10_state.md R17). -/
abbrev RegNum := BitVec 3

end Sys2Proof
end

