-- ==== Sys2Proof/Syntax.lean ====
section
/-! DEFINITION. The six operations (30_encoding.md R46, spec/opcode_table.json), one constructor a row.
Every operation has one operand, the 32-bit `imm` of format M (R45). -/

namespace Sys2Proof

/-- The operations of M3OP version 1. -/
inductive Instr where
  /-- INIT, operand the seed (41_init.md R75). -/
  | init (imm : Word)
  /-- BLK, operand one block word (42_block.md R80). -/
  | blk (imm : Word)
  /-- TAIL1, operand a 1-byte tail word (43_tail.md R85). -/
  | tail1 (imm : Word)
  /-- TAIL2, operand a 2-byte tail word (43_tail.md R86). -/
  | tail2 (imm : Word)
  /-- TAIL3, operand a 3-byte tail word (43_tail.md R87). -/
  | tail3 (imm : Word)
  /-- FIN, operand the length (44_final.md R92). -/
  | fin (imm : Word)
  deriving DecidableEq, Repr

end Sys2Proof
end

