-- ==== Sys2Proof/WellFormed.lean ====
section
/-! DEFINITION. Which operations exist as operation words: the operand of TAILn is below 2^(8n)
(30_encoding.md R48, R51); every other operand is any 32-bit value. -/

namespace Sys2Proof

/-- The operand fits its operation (30_encoding.md R51: "v below 2^(8n)" for TAILn). -/
def Instr.wf : Instr → Bool
  | .init _ => true
  | .blk _ => true
  | .tail1 imm => decide (imm.toNat < 2 ^ 8)
  | .tail2 imm => decide (imm.toNat < 2 ^ 16)
  | .tail3 imm => decide (imm.toNat < 2 ^ 24)
  | .fin _ => true

end Sys2Proof
end

