-- ==== Sys2Proof/Decode.lean ====
section
/-! DEFINITION. Operation words: the decoder (30_encoding.md R50), total on 35-bit values and rejecting by
name, the encoder (R51) and the table of masks and matches (R46, spec/opcode_table.json). -/

namespace Sys2Proof

/-- Why a 35-bit value is no operation word. -/
inductive Invalid where
  /-- op is 6 or 7 (30_encoding.md R49). -/
  | reservedOp
  /-- A TAILn word with a non-zero bit above its n bytes (30_encoding.md R48). -/
  | tailHighBits
  deriving DecidableEq, Repr

/-- The decoder's verdict (30_encoding.md R50). -/
inductive Decoded where
  | ok (i : Instr)
  | invalid (why : Invalid)
  deriving DecidableEq, Repr

/-- The op field, bits 34:32 (30_encoding.md R45). -/
def opField (w : OpWord) : BitVec 3 := w.extractLsb' 32 3

/-- The imm field, bits 31:0 (30_encoding.md R45). -/
def immField (w : OpWord) : Word := w.extractLsb' 0 32

/-- `imm[31:8n] = 0`, the condition on the operand of TAILn (30_encoding.md R48). -/
def tailZeros (n : Nat) (imm : Word) : Bool := imm >>> (8 * n) == 0#32

/-- A TAILn word's verdict (30_encoding.md R50, lines op = 2, 3, 4). -/
def decodeTail (n : Nat) (mk : Word → Instr) (imm : Word) : Decoded :=
  if tailZeros n imm then .ok (mk imm) else .invalid .tailHighBits

/-- `decode(w)`, total on 35-bit values (30_encoding.md R50). -/
def decode (w : OpWord) : Decoded :=
  match (opField w).toNat with
  | 0 => .ok (.init (immField w))
  | 1 => .ok (.blk (immField w))
  | 2 => decodeTail 1 .tail1 (immField w)
  | 3 => decodeTail 2 .tail2 (immField w)
  | 4 => decodeTail 3 .tail3 (immField w)
  | 5 => .ok (.fin (immField w))
  | _ => .invalid .reservedOp

/-- `{op, imm}`, an operation word from its two fields (30_encoding.md R45). -/
def opWord (op : BitVec 3) (imm : Word) : OpWord := op ++ imm

/-- The operation code of an operation (30_encoding.md R46). -/
def Instr.opcode : Instr → BitVec 3
  | .init _ => 0
  | .blk _ => 1
  | .tail1 _ => 2
  | .tail2 _ => 3
  | .tail3 _ => 4
  | .fin _ => 5

/-- The operand of an operation. -/
def Instr.operand : Instr → Word
  | .init imm => imm
  | .blk imm => imm
  | .tail1 imm => imm
  | .tail2 imm => imm
  | .tail3 imm => imm
  | .fin imm => imm

/-- `encode(o)`: the word of a well-formed operation (30_encoding.md R51). -/
def encode (i : Instr) : OpWord := opWord i.opcode i.operand

/-- The mnemonic of an operation (30_encoding.md R46). -/
def Instr.mnemonic : Instr → String
  | .init _ => "INIT"
  | .blk _ => "BLK"
  | .tail1 _ => "TAIL1"
  | .tail2 _ => "TAIL2"
  | .tail3 _ => "TAIL3"
  | .fin _ => "FIN"

/-- One row of the opcode table: a word w selects it when `w AND mask = pattern`. -/
structure OpRow where
  mnemonic : String
  mask : OpWord
  pattern : OpWord
  deriving DecidableEq, Repr

/-- The row a word is tested against (30_encoding.md R46). -/
def OpRow.selects (r : OpRow) (w : OpWord) : Bool := w &&& r.mask == r.pattern

/-- The table of 30_encoding.md R46, as spec/opcode_table.json has it. -/
def opcodeTable : List OpRow :=
  [ ⟨"INIT", 0x700000000, 0x000000000⟩,
    ⟨"BLK", 0x700000000, 0x100000000⟩,
    ⟨"TAIL1", 0x7FFFFFF00, 0x200000000⟩,
    ⟨"TAIL2", 0x7FFFF0000, 0x300000000⟩,
    ⟨"TAIL3", 0x7FF000000, 0x400000000⟩,
    ⟨"FIN", 0x700000000, 0x500000000⟩ ]

/-- The instruction of a decoder's verdict, if it gives one. -/
def Decoded.instr? : Decoded → Option Instr
  | .ok i => some i
  | .invalid _ => none

/-- The instruction read from a word numbered as spec/opcode_table.json numbers it: bits at or above
`nbits` are 0, and a value of 2^35 or more is no 35-bit word. -/
def decodeTableWord (nbits w : Nat) : Option Instr :=
  if w % 2 ^ nbits < 2 ^ 35 then (decode (BitVec.ofNat 35 (w % 2 ^ nbits))).instr? else none

end Sys2Proof
end

