-- ==== Sys2Proof/Config.lean ====
section
/-! DEFINITION. What the spec leaves to the platform (00_scope.md R3, the OPEN parameters) and the free
values (93_implementation_defined.md, "any value"). None has a body that a proof could use. -/

namespace Sys2Proof

/-- The n-th free value that engine number `source` draws: what an "unspecified" 32-bit value is, a free draw under no
law (93_implementation_defined.md U3, U6). Nothing relates two engines' values, nor two of one engine.
DESIGN CHOICE, safe: logs 7, 16. -/
opaque Config.freeValue (source n : Nat) : BitVec 32

/-- REG_BASE, the platform address of host register 0 (00_scope.md R3, OPEN). DESIGN CHOICE, safe: log 17. -/
opaque Config.regBase : Nat

/-- REG_STRIDE, the distance between host registers (00_scope.md R3, OPEN). DESIGN CHOICE, safe: log 17. -/
opaque Config.regStride : Nat

/-- MSG_BASE, the platform address of message offset 0 (00_scope.md R3, OPEN). DESIGN CHOICE, safe: log 17. -/
opaque Config.msgBase : Nat

/-- How many engines the platform holds beyond the first (00_scope.md R3: N_ENGINES is at least 1).
DESIGN CHOICE, safe: log 16. -/
opaque Config.extraEngines : Nat

/-- N_ENGINES (00_scope.md R3). -/
def Config.nEngines : Nat := Config.extraEngines + 1

/-- The platform address of host register i (10_state.md R17). No rule uses it. -/
def Config.regAddr (i : RegNum) : Nat := Config.regBase + i.toNat * Config.regStride

/-- The platform address of message offset `off` (20_memory.md R38). No rule uses it. -/
def Config.msgAddr (off : Word) : Nat := Config.msgBase + off.toNat

end Sys2Proof
end

