-- ==== Sys2Proof/Machine/State.lean ====
section
/-! DEFINITION. The state of one engine instance with the message space and its host
(10_state.md, 20_memory.md, 46_host_interface.md), the reasons to stop, and the state after reset. -/

namespace Sys2Proof.Machine

/-- PHASE (10_state.md R13). -/
inductive Phase where
  /-- No transaction since reset. -/
  | idle
  /-- START accepted, INIT not yet executed. -/
  | init
  /-- INIT executed, FIN not yet executed. -/
  | absorb
  /-- FIN executed; H holds the digest. -/
  | done
  deriving DecidableEq, Repr

/-- The five host registers (10_state.md R17). -/
inductive HostReg where
  | ctrl
  | status
  | seed
  | len
  | digest
  deriving DecidableEq, Repr

/-- What can happen next: the interleaving of the engine with the host and the platform
(45_sequencer.md R101, 46_host_interface.md R120, R132, 60_exceptions.md R144). DESIGN CHOICE: log 1. -/
inductive Move where
  /-- The engine takes its step, if it has one (45_sequencer.md R101). -/
  | engine
  /-- `RD i` (46_host_interface.md R121). -/
  | read (i : RegNum)
  /-- `WR i, v` (46_host_interface.md R122 to R124). -/
  | write (i : RegNum) (v : Word)
  /-- The host, or another agent, writes the byte of MSG at `off` (46_host_interface.md R129 step 2, R132). -/
  | place (off : Word) (b : Byte)
  /-- Reset is asserted (70_reset_and_hazards.md R160). -/
  | reset
  /-- Read STATUS until BUSY = 0 (46_host_interface.md R129 step 1). -/
  | waitFree
  /-- Read STATUS until DONE = 1 (46_host_interface.md R129 step 6). -/
  | waitDone
  deriving DecidableEq, Repr

/-- MSG: the readable bytes by offset, offsets strictly rising; an unlisted offset has no byte to
read (20_memory.md R30, R39). DESIGN CHOICE: logs 3, 21. -/
abbrev Memory := List Host.Cell

/-- The whole state. The first six fields are the spec's; the last four are the model's own
bookkeeping of the host's side. CTRL, STATUS and DIGEST store nothing (10_state.md R16, R18, R19). -/
structure State where
  /-- H, the accumulator (10_state.md R10). -/
  h : Word
  /-- OFF, the offset of the next unread message byte (10_state.md R12). -/
  off : Word
  /-- PHASE (10_state.md R13). -/
  phase : Phase
  /-- SEED, host register 2 (10_state.md R14). -/
  seed : Word
  /-- LEN, host register 3 (10_state.md R15). -/
  len : Word
  /-- MSG, the message space (10_state.md R21, 20_memory.md R30). -/
  msg : Memory
  /-- The moves to come, first one first; with none left the engine moves. DESIGN CHOICE: log 1. -/
  moves : List Move
  /-- What the host's reads returned, newest first (46_host_interface.md R120). DESIGN CHOICE, safe: log 8. -/
  reads : List (RegNum × Word)
  /-- How many free values have been drawn. DESIGN CHOICE, safe: log 7. -/
  freeCount : Nat
  /-- Which engine's free values are drawn: two engines of a platform share none. DESIGN CHOICE, safe: logs 7, 16. -/
  freeSource : Nat
  deriving DecidableEq, Repr

/-- The reasons for a fault: none. "The set of exception causes is empty" (60_exceptions.md R140). -/
inductive Fault where
  deriving DecidableEq, Repr

/-- The reasons for a refusal. -/
inductive Refusal where
  /-- An instruction without a meaning yet; raised by exec's arms only. Safe: the run stops. -/
  | notModelled (mnemonic : String)
  /-- The engine is handed a word that is no operation word (93_implementation_defined.md U5); raised by
  execWord. Safe: the run stops. Unreachable through the sequencer. -/
  | invalidOperationWord
  /-- TAILn with an operand that no TAILn word holds (30_encoding.md R48, 93_implementation_defined.md U5);
  raised by the meanings of TAIL1, TAIL2, TAIL3. Safe: the run stops. DESIGN CHOICE, safe: log 9. -/
  | invalidOperand
  /-- ABSORB with OFF above LEN, for which 45_sequencer.md R102 selects nothing; raised by engineStep.
  Safe: the run stops. Unreachable (10_state.md R12). DESIGN CHOICE, safe: log 11. -/
  | offsetPastLength
  /-- A host access to register number 5, 6 or 7 (93_implementation_defined.md U9); raised by hostRead and
  hostWrite. Safe: the run stops. DESIGN CHOICE, safe: log 13. -/
  | noSuchRegister
  /-- A message byte below LEN written while BUSY (93_implementation_defined.md U4); raised by hostPlace.
  Safe: the run stops. DESIGN CHOICE, safe: log 12. -/
  | messageChangedWhileBusy
  /-- A call with a message of 2^32 bytes or more (93_implementation_defined.md U2); raised by hostCall.
  Safe: the run stops. -/
  | messageTooLong
  deriving DecidableEq, Repr

/-- The state right after reset (10_state.md R24, 70_reset_and_hazards.md R160). H and OFF are
"unspecified" there and U6 warns against 0: DESIGN CHOICE, unsafe, logs 4 and 5. -/
def State.reset : State where
  h := 0xA5A5A5A5
  off := 0x5A5A5A5A
  phase := .idle
  seed := 0
  len := 0
  msg := []
  moves := []
  reads := []
  freeCount := 0
  freeSource := 0

end Sys2Proof.Machine
end

