-- ==== Sys2Proof/Machine/Ops.lean ====
section
/-! DEFINITION. The named operations over memory and registers. There is no exception to take and no return
from one: "there is no trap mechanism" (60_exceptions.md R140, R142). -/

namespace Sys2Proof.Machine

/-- The byte of MSG at an offset, if there is one to read (20_memory.md R30, R39). -/
def Memory.readByte : Memory → Nat → Option Byte
  | [], _ => none
  | c :: m, a => if c.1 = a then some c.2 else Memory.readByte m a

/-- Put a byte at an offset, keeping the offsets rising. -/
def Memory.writeByte : Memory → Nat → Byte → Memory
  | [], a, b => [(a, b)]
  | c :: m, a, b =>
    if a < c.1 then (a, b) :: c :: m
    else if a = c.1 then (a, b) :: m
    else c :: Memory.writeByte m a b

/-- Every offset of a list is above `lo` and the offsets rise, all below 2^32 (20_memory.md R30). -/
def Memory.risingFrom : Nat → Memory → Bool
  | _, [] => true
  | lo, c :: m => decide (lo ≤ c.1) && decide (c.1 < 2 ^ 32) && Memory.risingFrom (c.1 + 1) m

/-- The canonical form of MSG: offsets strictly rising and below 2^32. An unlisted offset has no value,
so no entry can equal it. DEDUCED, safe: log 23. -/
def Memory.wf (m : Memory) : Bool := Memory.risingFrom 0 m

/-- `MemRead(addr, n)` zero-extended to 32 bits, for n from 1 to 4 (20_memory.md R32, R33): the byte at
the lowest offset is the least significant; nothing if one of the bytes cannot be read (R39).
For n = 0 and above 4, which nothing asks for: DESIGN CHOICE, unsafe, log 19. -/
def Memory.memRead (m : Memory) : Nat → Nat → Option Word
  | _, 0 => some 0
  | a, n + 1 => do
    let b ← m.readByte a
    let rest ← Memory.memRead m (a + 1) n
    return b.setWidth 32 ||| (rest <<< 8)

/-- INIT's effect (41_init.md R75). -/
def State.beginWalk (s : State) (imm : Word) : State := { s with h := imm, off := 0, phase := .absorb }

/-- BLK's and TAILn's effect: a new accumulator, and n more message bytes consumed (42_block.md R80,
43_tail.md R85 to R87). -/
def State.absorbed (s : State) (h : Word) (n : Nat) : State :=
  { s with h := h, off := s.off + BitVec.ofNat 32 n }

/-- FIN's effect: the digest, and DONE (44_final.md R92). -/
def State.finished (s : State) (h : Word) : State := { s with h := h, phase := .done }

/-- START accepted: PHASE changes and nothing else (46_host_interface.md R124). -/
def State.started (s : State) : State := { s with phase := .init }

/-- SEED takes a value (46_host_interface.md R122). -/
def State.setSeed (s : State) (v : Word) : State := { s with seed := v }

/-- LEN takes a value (46_host_interface.md R122). -/
def State.setLen (s : State) (v : Word) : State := { s with len := v }

/-- A byte is placed in MSG (46_host_interface.md R132). -/
def State.placed (s : State) (off : Word) (b : Byte) : State :=
  { s with msg := s.msg.writeByte off.toNat b }

/-- A host read returned `v` (46_host_interface.md R120). -/
def State.recorded (s : State) (i : RegNum) (v : Word) : State := { s with reads := (i, v) :: s.reads }

/-- `n` free values have been drawn. DESIGN CHOICE, safe: log 7. -/
def State.drawn (s : State) (n : Nat) : State := { s with freeCount := s.freeCount + n }

/-- The moves to come are replaced. DESIGN CHOICE: log 1. -/
def State.withMoves (s : State) (ms : List Move) : State := { s with moves := ms }

/-- The reset event (70_reset_and_hazards.md R160): H and OFF take unspecified values, MSG is not touched.
DESIGN CHOICE, safe: log 6. -/
def State.resetEvent (s : State) : State :=
  { s with
    h := Config.freeValue s.freeSource s.freeCount
    off := Config.freeValue s.freeSource (s.freeCount + 1)
    phase := .idle
    seed := 0
    len := 0
    freeCount := s.freeCount + 2 }

end Sys2Proof.Machine
end

