-- ==== Sys2Proof/Machine/Fetch.lean ====
section
/-! DEFINITION. Putting a given operation where the sequencer finds it next. The engine fetches no
instructions (20_memory.md R41, 10_state.md R24): the sequencer builds each word from PHASE, OFF, LEN, SEED and
MSG (45_sequencer.md R102), so these are what is set. DESIGN CHOICE, unsafe: log 15. -/

namespace Sys2Proof.Machine

/-- The `n` low bytes of a word put at rising offsets from `a`, least significant first (20_memory.md R33). -/
def Memory.writeWord (m : Memory) (v : Word) : Nat → Nat → Memory
  | _, 0 => m
  | a, n + 1 => Memory.writeWord (m.writeByte a (v.setWidth 8)) (v >>> 8) (a + 1) n

/-- The last `n` bytes of the message are still to be absorbed, and they are `imm`'s. -/
def State.awaiting (s : State) (n : Nat) (imm : Word) : State :=
  { s with
    off := 0
    phase := .absorb
    len := BitVec.ofNat 32 n
    msg := s.msg.writeWord imm 0 n
    moves := [] }

/-- The state in which the engine's next word is that of `i`. -/
def State.withNext (s : State) (i : Instr) : State :=
  match i with
  | .init imm => { s with phase := .init, seed := imm, moves := [] }
  | .blk imm => s.awaiting 4 imm
  | .tail1 imm => s.awaiting 1 imm
  | .tail2 imm => s.awaiting 2 imm
  | .tail3 imm => s.awaiting 3 imm
  | .fin imm => { s with phase := .absorb, off := imm, len := imm, moves := [] }

end Sys2Proof.Machine
end

