-- ==== Sys2Proof/Machine/Datapath.lean ====
section
/-! DEFINITION. The datapath's pure functions on 32-bit values (40_datapath_arith.md R60 to R69). -/

namespace Sys2Proof.Machine

/-- c1 (40_datapath_arith.md R66). -/
def c1 : Word := 0xCC9E2D51
/-- c2 (40_datapath_arith.md R66). -/
def c2 : Word := 0x1B873593
/-- r1 (40_datapath_arith.md R66). -/
def r1 : Nat := 15
/-- r2 (40_datapath_arith.md R66). -/
def r2 : Nat := 13
/-- m (40_datapath_arith.md R66). -/
def roundMul : Word := 5
/-- n (40_datapath_arith.md R66). -/
def roundAdd : Word := 0xE6546B64
/-- f1, the first finalization multiplier (40_datapath_arith.md R66). -/
def f1 : Word := 0x85EBCA6B
/-- f2, the second finalization multiplier (40_datapath_arith.md R66). -/
def f2 : Word := 0xC2B2AE35

/-- ADD32 (40_datapath_arith.md R61): the carry out of bit 31 is dropped. -/
def add32 (a b : Word) : Word := a + b

/-- MUL32 (40_datapath_arith.md R62): the low 32 bits of the product. -/
def mul32 (a b : Word) : Word := a * b

/-- `a >> s`, the logical right shift (40_datapath_arith.md R64). -/
def shr32 (a : Word) (s : Nat) : Word := a >>> s

/-- `a << s`, truncated to 32 bits (40_datapath_arith.md R64). -/
def shl32 (a : Word) (s : Nat) : Word := a <<< s

/-- ROTL32 (40_datapath_arith.md R65), by the document's formula; used with r = 15 and r = 13 only.
DESIGN CHOICE, unsafe: log 19. -/
def rotl32 (x : Word) (r : Nat) : Word := shl32 x r ||| shr32 x (32 - r)

/-- MIXK, the word mixer (40_datapath_arith.md R67). -/
def mixk (k : Word) : Word :=
  let a := mul32 k c1
  let b := rotl32 a r1
  mul32 b c2

/-- ROUND, the accumulator update of a block (40_datapath_arith.md R68). -/
def round (h k : Word) : Word :=
  let a := h ^^^ mixk k
  let b := rotl32 a r2
  let c := mul32 b roundMul
  add32 c roundAdd

/-- FMIX, the finalization avalanche (40_datapath_arith.md R69). -/
def fmix (h : Word) : Word :=
  let a := h ^^^ shr32 h 16
  let b := mul32 a f1
  let c := b ^^^ shr32 b 13
  let d := mul32 c f2
  d ^^^ shr32 d 16

end Sys2Proof.Machine
end

