-- ==== Sys2Proof/Machine/Block.lean ====
section
/-! DEFINITION. The block mixing family: BLK (42_block.md). -/

namespace Sys2Proof.Machine

/-- BLK: mix one block word into the accumulator (42_block.md R80). Where the
sequencer would not issue it: DESIGN CHOICE, unsafe, log 10. -/
def execBlk (imm : Word) (s : State) : Host.Outcome State Fault Refusal :=
  .next (s.absorbed (round s.h imm) 4)

end Sys2Proof.Machine
end

