-- ==== Sys2Proof/Machine/Final.lean ====
section
/-! DEFINITION. The finalization family: FIN (44_final.md). -/

namespace Sys2Proof.Machine

/-- FIN: fold the length into the accumulator, run the avalanche, finish (44_final.md R92). Where the
sequencer would not issue it: DESIGN CHOICE, unsafe, log 10. -/
def execFin (imm : Word) (s : State) : Host.Outcome State Fault Refusal :=
  .next (s.finished (fmix (s.h ^^^ imm)))

end Sys2Proof.Machine
end

