-- ==== Sys2Proof/Machine/Init.lean ====
section
/-! DEFINITION. The initialisation family: INIT (41_init.md). -/

namespace Sys2Proof.Machine

/-- INIT: load the seed into the accumulator and start walking the message (41_init.md R75). Where the
sequencer would not issue it: DESIGN CHOICE, unsafe, log 10. -/
def execInit (imm : Word) (s : State) : Host.Outcome State Fault Refusal :=
  .next (s.beginWalk imm)

end Sys2Proof.Machine
end

