-- ==== Sys2Proof/Machine/Tail.lean ====
section
/-! DEFINITION. The tail mixing family: TAIL1, TAIL2, TAIL3 (43_tail.md). -/

namespace Sys2Proof.Machine

/-- The action the three tail operations share (43_tail.md): `H <- H XOR MIXK(imm)`, OFF moves n bytes on.
An operand with a bit above the n bytes belongs to no TAILn word (30_encoding.md R48): refused, DESIGN CHOICE, safe, log 9.
Where the sequencer would not issue it: DESIGN CHOICE, unsafe, log 10. -/
def tailMix (n : Nat) (imm : Word) (s : State) : Host.Outcome State Fault Refusal :=
  if tailZeros n imm then .next (s.absorbed (s.h ^^^ mixk imm) n) else .refused .invalidOperand

/-- TAIL1: mix a one-byte tail (43_tail.md R85). -/
def execTail1 (imm : Word) (s : State) : Host.Outcome State Fault Refusal := tailMix 1 imm s

/-- TAIL2: mix a two-byte tail (43_tail.md R86). -/
def execTail2 (imm : Word) (s : State) : Host.Outcome State Fault Refusal := tailMix 2 imm s

/-- TAIL3: mix a three-byte tail (43_tail.md R87). -/
def execTail3 (imm : Word) (s : State) : Host.Outcome State Fault Refusal := tailMix 3 imm s

end Sys2Proof.Machine
end

