-- ==== Sys2Proof/Machine/Dispatch.lean ====
section
/-! DEFINITION. The dispatch: one arm per operation (30_encoding.md R46). -/

namespace Sys2Proof.Machine

/-- `execute` of 45_sequencer.md R102: each operation acts as its own rule says. -/
def exec (i : Instr) (s : State) : Host.Outcome State Fault Refusal :=
  match i with
  | .init imm => Sys2Proof.Machine.execInit imm s
  | .blk imm => Sys2Proof.Machine.execBlk imm s
  | .tail1 imm => Sys2Proof.Machine.execTail1 imm s
  | .tail2 imm => Sys2Proof.Machine.execTail2 imm s
  | .tail3 imm => Sys2Proof.Machine.execTail3 imm s
  | .fin imm => Sys2Proof.Machine.execFin imm s

end Sys2Proof.Machine
end

