-- ==== Sys2Proof/Machine/Operands.lean ====
section
/-! DEFINITION. Operand assembly: the imm of each operation (30_encoding.md R47). -/

namespace Sys2Proof.Machine

/-- INIT's operand: SEED. -/
def operandInit (s : State) : Option Word := some s.seed

/-- BLK's operand: `MemRead(OFF, 4)`. -/
def operandBlk (s : State) : Option Word := s.msg.memRead s.off.toNat 4

/-- TAIL1's operand: `zext_32(MemRead(OFF, 1))`. -/
def operandTail1 (s : State) : Option Word := s.msg.memRead s.off.toNat 1

/-- TAIL2's operand: `zext_32(MemRead(OFF, 2))`. -/
def operandTail2 (s : State) : Option Word := s.msg.memRead s.off.toNat 2

/-- TAIL3's operand: `zext_32(MemRead(OFF, 3))`. -/
def operandTail3 (s : State) : Option Word := s.msg.memRead s.off.toNat 3

/-- FIN's operand: LEN. -/
def operandFin (s : State) : Option Word := some s.len

end Sys2Proof.Machine
end

