-- ==== Sys2Proof/Machine/Sequencer.lean ====
section
/-! DEFINITION. The sequencer's selection of the next operation word (45_sequencer.md R101, R102). -/

namespace Sys2Proof.Machine

/-- What the sequencer has to issue. -/
inductive Issue where
  /-- An operation word. -/
  | word (w : OpWord)
  /-- No step: IDLE, DONE, or a message byte that cannot be read (45_sequencer.md R101, 20_memory.md R39). -/
  | noStep
  /-- ABSORB with OFF above LEN, which 10_state.md R12 excludes. DESIGN CHOICE, safe: log 11. -/
  | pastLength
  deriving DecidableEq, Repr

/-- `{op, imm}` when the operand's bytes can be read (30_encoding.md R45, 20_memory.md R39). -/
def issue (op : BitVec 3) : Option Word → Issue
  | some imm => .word (opWord op imm)
  | none => .noStep

/-- The choice in ABSORB by `r = LEN - OFF` (45_sequencer.md R102). -/
def absorbWord (s : State) : Issue :=
  if s.len.toNat < s.off.toNat then .pastLength
  else
    match s.len.toNat - s.off.toNat with
    | 0 => issue 5 (operandFin s)
    | 1 => issue 2 (operandTail1 s)
    | 2 => issue 3 (operandTail2 s)
    | 3 => issue 4 (operandTail3 s)
    | _ => issue 1 (operandBlk s)

/-- `next_word()` (45_sequencer.md R102). -/
def nextWord (s : State) : Issue :=
  match s.phase with
  | .idle => .noStep
  | .init => issue 0 (operandInit s)
  | .absorb => absorbWord s
  | .done => .noStep

end Sys2Proof.Machine
end

