-- ==== Sys2Proof/Machine/Engine.lean ====
section
/-! DEFINITION. The engine's step (45_sequencer.md R101, R102). -/

namespace Sys2Proof.Machine

/-- `execute(decode(w))`; a word that is no operation word is refused (93_implementation_defined.md U5). -/
def execWord (w : OpWord) (s : State) : Host.Outcome State Fault Refusal :=
  match decode w with
  | .ok i => exec i s
  | .invalid _ => .refused .invalidOperationWord

/-- One engine step (45_sequencer.md R101). Where the engine has no step nothing changes: in IDLE and DONE it
waits for a START, and with an unreadable byte it stays BUSY for ever (20_memory.md R39). DESIGN CHOICE: logs 2, 3, 11. -/
def engineStep (s : State) : Host.Outcome State Fault Refusal :=
  match nextWord s with
  | .word w => execWord w s
  | .noStep => .next s
  | .pastLength => .refused .offsetPastLength

end Sys2Proof.Machine
end

