-- ==== Sys2Proof/Machine/Flags.lean ====
section
/-! DEFINITION. PHASE's codes and the two status bits BUSY and DONE (10_state.md R13, R18). There is no
other flag: no operation records anything about its arithmetic (10_state.md R20). -/

namespace Sys2Proof.Machine

/-- The 2-bit value of PHASE (10_state.md R13). DESIGN CHOICE, safe: log 18. -/
def Phase.code : Phase → BitVec 2
  | .idle => 0
  | .init => 1
  | .absorb => 2
  | .done => 3

/-- The phase of a 2-bit value (10_state.md R13). -/
def Phase.ofCode (c : BitVec 2) : Phase :=
  match c.toNat with
  | 0 => .idle
  | 1 => .init
  | 2 => .absorb
  | _ => .done

/-- BUSY (10_state.md R18). -/
def Phase.busy : Phase → Bool
  | .idle => false
  | .init => true
  | .absorb => true
  | .done => false

/-- DONE (10_state.md R18). -/
def Phase.isDone : Phase → Bool
  | .idle => false
  | .init => false
  | .absorb => false
  | .done => true

/-- STATUS: `{30 zeros, DONE, BUSY}` (10_state.md R18, 46_host_interface.md R121). -/
def State.status (s : State) : Word :=
  0#30 ++ BitVec.ofBool s.phase.isDone ++ BitVec.ofBool s.phase.busy

end Sys2Proof.Machine
end

