-- ==== Sys2Proof/Machine/HostPort.lean ====
section
/-! DEFINITION. What the host and the platform can do to the engine: register accesses, message bytes, reset
(46_host_interface.md R120 to R132, 70_reset_and_hazards.md R160). Each is atomic. -/

namespace Sys2Proof.Machine

/-- The register of a number; 5, 6 and 7 name none (10_state.md R17, 46_host_interface.md R130). -/
def hostReg (i : RegNum) : Option HostReg :=
  match i.toNat with
  | 0 => some .ctrl
  | 1 => some .status
  | 2 => some .seed
  | 3 => some .len
  | 4 => some .digest
  | _ => none

/-- `RD DIGEST`: H in DONE, otherwise an unspecified value (10_state.md R19, 46_host_interface.md R121).
DESIGN CHOICE, safe: log 7. -/
def readDigest (i : RegNum) (s : State) : State :=
  if s.phase.isDone then s.recorded i s.h else (s.drawn 1).recorded i (Config.freeValue s.freeSource s.freeCount)

/-- `RD i` (46_host_interface.md R121). -/
def hostRead (i : RegNum) (s : State) : Host.Outcome State Fault Refusal :=
  match hostReg i with
  | some .ctrl => .next (s.recorded i 0)
  | some .status => .next (s.recorded i s.status)
  | some .seed => .next (s.recorded i s.seed)
  | some .len => .next (s.recorded i s.len)
  | some .digest => .next (readDigest i s)
  | none => .refused .noSuchRegister

/-- `WR CTRL, v`: START when bit 0 is 1 and the engine is not BUSY, else nothing (46_host_interface.md R124). -/
def writeCtrl (v : Word) (s : State) : State :=
  if v.getLsbD 0 && !s.phase.busy then s.started else s

/-- `WR SEED, v`: dropped while BUSY (46_host_interface.md R122). -/
def writeSeed (v : Word) (s : State) : State := if s.phase.busy then s else s.setSeed v

/-- `WR LEN, v`: dropped while BUSY (46_host_interface.md R122). -/
def writeLen (v : Word) (s : State) : State := if s.phase.busy then s else s.setLen v

/-- `WR i, v` (46_host_interface.md R122 to R124); writes to STATUS and DIGEST are dropped (R123). -/
def hostWrite (i : RegNum) (v : Word) (s : State) : Host.Outcome State Fault Refusal :=
  match hostReg i with
  | some .ctrl => .next (writeCtrl v s)
  | some .status => .next s
  | some .seed => .next (writeSeed v s)
  | some .len => .next (writeLen v s)
  | some .digest => .next s
  | none => .refused .noSuchRegister

/-- A byte of MSG is written (46_host_interface.md R132); below LEN while BUSY the run is refused
(20_memory.md R42, 93_implementation_defined.md U4). DESIGN CHOICE, safe: log 12. -/
def hostPlace (off : Word) (b : Byte) (s : State) : Host.Outcome State Fault Refusal :=
  if s.phase.busy && decide (off.toNat < s.len.toNat) then .refused .messageChangedWhileBusy
  else .next (s.placed off b)

/-- One `RD STATUS` of a polling loop: if the awaited bit is not there, the engine moves once and the host
polls again (46_host_interface.md R129, 70_reset_and_hazards.md R170). DESIGN CHOICE, unsafe: log 14. -/
def poll (arrived : Bool) (again : Move) (s : State) : State :=
  if arrived then s.recorded 1 s.status
  else (s.recorded 1 s.status).withMoves (.engine :: again :: s.moves)

end Sys2Proof.Machine
end

