-- ==== Sys2Proof/Machine/Turn.lean ====
section
/-! DEFINITION. One move of one agent (45_sequencer.md R101, 46_host_interface.md R120). -/

namespace Sys2Proof.Machine

/-- What a move does to a state from whose list of moves it has been taken. -/
def perform (m : Move) (s : State) : Host.Outcome State Fault Refusal :=
  match m with
  | .engine => engineStep s
  | .read i => hostRead i s
  | .write i v => hostWrite i v s
  | .place off b => hostPlace off b s
  | .reset => .next s.resetEvent
  | .waitFree => .next (poll (!s.phase.busy) .waitFree s)
  | .waitDone => .next (poll s.phase.isDone .waitDone s)

/-- The next move of the list, the engine's when none is left (70_reset_and_hazards.md R170).
DESIGN CHOICE: logs 1, 22. -/
def turn (s : State) : Host.Outcome State Fault Refusal :=
  match s.moves with
  | [] => perform .engine s
  | m :: rest => perform m (s.withMoves rest)

end Sys2Proof.Machine
end

