-- ==== Sys2Proof/Machine/Step.lean ====
section
/-! DEFINITION. The machine's step, and the state that runs a given operation next. -/

namespace Sys2Proof.Machine

/-- One step of the machine: one move of one agent (45_sequencer.md R101). -/
def step (s : State) : Host.Outcome State Fault Refusal := turn s

/-- The state whose very next step runs the operation of a table word; a value that is no operation word
cannot be issued (30_encoding.md R48, R49) and changes nothing. DESIGN CHOICE, unsafe: log 15. -/
def State.withFetchWord (s : State) (nbits w : Nat) : State :=
  match decodeTableWord nbits w with
  | some i => s.withNext i
  | none => s

end Sys2Proof.Machine
end

