-- ==== Sys2Proof/Machine/Stream.lean ====
section
/-! DEFINITION. The canonical stream of a message and the number of its operations
(45_sequencer.md R103, R105); it is also the expansion of the pseudo-instruction HASH32 (30_encoding.md R54). -/

namespace Sys2Proof.Machine

/-- The little-endian value of at most four bytes (20_memory.md R33). Of none or more than four, which nothing asks for:
DESIGN CHOICE, unsafe, log 19. -/
def littleEndian (bs : List Byte) : Word := bs.foldr (fun b v => b.setWidth 32 ||| (v <<< 8)) 0

/-- The BLK operations: `w_i` is the little-endian word of `data[4i .. 4i+3]` (45_sequencer.md R103). -/
def streamBlocks (data : List Byte) : List Instr :=
  (List.range (data.length / 4)).map fun i => .blk (littleEndian ((data.drop (4 * i)).take 4))

/-- The tail operation, if `n = L mod 4` is not 0 (45_sequencer.md R103). -/
def streamTail (data : List Byte) : List Instr :=
  let v := littleEndian (data.drop (4 * (data.length / 4)))
  match data.length % 4 with
  | 0 => []
  | 1 => [.tail1 v]
  | 2 => [.tail2 v]
  | _ => [.tail3 v]

/-- `stream(data, s)` (45_sequencer.md R103, which defines it for at most 2^32 - 1 bytes). A longer message has no
canonical stream; that this function ends there in FIN of the length modulo 2^32 is the model's own value:
DESIGN CHOICE, unsafe, log 24. -/
def stream (data : List Byte) (seed : Word) : List Instr :=
  .init seed :: (streamBlocks data ++ streamTail data ++ [.fin (BitVec.ofNat 32 data.length)])

/-- The number of engine steps from the accepted START to DONE (45_sequencer.md R105). No transaction has 2^32 bytes or
more; the number there is the model's own value: DESIGN CHOICE, unsafe, log 24. -/
def stepCount (len : Nat) : Nat := 2 + len / 4 + if len % 4 = 0 then 0 else 1

end Sys2Proof.Machine
end

