-- ==== Sys2Proof/Machine/Assembler.lean ====
section
/-! DEFINITION. The notation of operations and host accesses (30_encoding.md R53, R54, 46_host_interface.md
R120), on lists of characters. DESIGN CHOICE, unsafe: log 20. -/

namespace Sys2Proof.Machine

/-- Blank space inside a line. -/
def isBlank (c : Char) : Bool := c == ' ' || c == '\t' || c == '\r'

/-- A line without its comment; a `;` inside a quoted string starts none (30_encoding.md R53).
DESIGN CHOICE, unsafe: log 20. -/
def uncomment : Bool → List Char → List Char
  | _, [] => []
  | quoted, c :: cs =>
    if c == ';' && !quoted then [] else c :: uncomment (if c == '"' then !quoted else quoted) cs

/-- The words of a text, `cur` being the reversed beginning of the one being read. -/
def wordsFrom (sep : Char → Bool) : List Char → List Char → List (List Char)
  | cur, [] => if cur.isEmpty then [] else [cur.reverse]
  | cur, c :: cs =>
    if sep c then (if cur.isEmpty then wordsFrom sep [] cs else cur.reverse :: wordsFrom sep [] cs)
    else wordsFrom sep (c :: cur) cs

/-- The value of a digit, in either letter case (00_scope.md R4). -/
def digitVal (c : Char) : Option Nat :=
  let n := c.toNat
  if 48 ≤ n && n ≤ 57 then some (n - 48)
  else if 65 ≤ n && n ≤ 70 then some (n - 55)
  else if 97 ≤ n && n ≤ 102 then some (n - 87)
  else none

/-- The value of a row of digits after the value `acc` of those before it. -/
def digitsFrom (base : Nat) : Nat → List Char → Option Nat
  | acc, [] => some acc
  | acc, c :: cs =>
    match digitVal c with
    | some d => if d < base then digitsFrom base (acc * base + d) cs else none
    | none => none

/-- An unsigned number: hexadecimal with the prefix 0x, or decimal (30_encoding.md R53). -/
def number : List Char → Option Nat
  | [] => none
  | '0' :: 'x' :: c :: cs => digitsFrom 16 0 (c :: cs)
  | c :: cs => digitsFrom 10 0 (c :: cs)

/-- A number below a bound; one that does not fit is an assembly error (30_encoding.md R53). -/
def numberBelow (bound : Nat) (t : List Char) : Option Nat :=
  match number t with
  | some v => if v < bound then some v else none
  | none => none

/-- The operand of an operation with `bits` operand bits. -/
def operandOf (bits : Nat) (mk : Word → Instr) (t : List Char) : Option Instr :=
  (numberBelow (2 ^ bits) t).map fun v => mk (BitVec.ofNat 32 v)

/-- `MNEMONIC operand` (30_encoding.md R53). -/
def operationOf (name arg : List Char) : Option Instr :=
  match name with
  | ['I', 'N', 'I', 'T'] => operandOf 32 .init arg
  | ['B', 'L', 'K'] => operandOf 32 .blk arg
  | ['T', 'A', 'I', 'L', '1'] => operandOf 8 .tail1 arg
  | ['T', 'A', 'I', 'L', '2'] => operandOf 16 .tail2 arg
  | ['T', 'A', 'I', 'L', '3'] => operandOf 24 .tail3 arg
  | ['F', 'I', 'N'] => operandOf 32 .fin arg
  | _ => none

/-- The message of HASH32: byte values, or a quoted ASCII string (30_encoding.md R54). -/
def messageOf (t : List Char) : Option (List Byte) :=
  match t.dropWhile isBlank with
  | '"' :: cs =>
    if (cs.dropWhile (· != '"')).tail.all isBlank && (cs.any (· == '"')) then
      (cs.takeWhile (· != '"')).mapM fun c => if c.toNat < 128 then some (BitVec.ofNat 8 c.toNat) else none
    else none
  | t => (wordsFrom isBlank [] t).mapM fun w => (numberBelow 256 w).map (BitVec.ofNat 8)

/-- `HASH32 seed, bytes`: the canonical stream (30_encoding.md R54). With 2^32 bytes or more the line is an assembly
error: it would end in a FIN whose operand does not fit (R53), and there is no canonical stream (R103).
DEDUCED, safe: log 24. -/
def hashLine (t : List Char) : Option (List Instr) :=
  match wordsFrom isBlank [] (t.takeWhile (· != ',')), t.dropWhile (· != ',') with
  | [seed], ',' :: body =>
    match numberBelow (2 ^ 32) seed, messageOf body with
    | some s, some data =>
      if data.length < 2 ^ 32 then some (stream data (BitVec.ofNat 32 s)) else none
    | _, _ => none
  | _, _ => none

/-- One line: the operations it stands for, none for a blank line or a comment; nothing on an assembly
error (30_encoding.md R53, R54). -/
def assembleLine (line : List Char) : Option (List Instr) :=
  let t := (uncomment false line).dropWhile isBlank
  let name := t.takeWhile fun c => !isBlank c
  let rest := t.dropWhile fun c => !isBlank c
  if name.isEmpty then some []
  else if name = ['H', 'A', 'S', 'H', '3', '2'] then hashLine rest
  else
    match wordsFrom isBlank [] rest with
    | [arg] => (operationOf name arg).map fun i => [i]
    | _ => none

/-- A program of operations, one a line, and its words (30_encoding.md R51, R53). -/
def assemble (text : List Char) : Option (List OpWord) :=
  ((wordsFrom (· == '\n') [] text).mapM assembleLine).map fun ls => ls.flatten.map encode

/-- A hexadecimal digit, in capitals. -/
def hexChar (n : Nat) : Char := if n < 10 then Char.ofNat (48 + n) else Char.ofNat (55 + n)

/-- `n` hexadecimal digits of a number, the most significant first. -/
def hexDigits : Nat → Nat → List Char
  | 0, _ => []
  | n + 1, v => hexDigits n (v / 16) ++ [hexChar (v % 16)]

/-- The mnemonic as characters. -/
def mnemonicChars : Instr → List Char
  | .init _ => ['I', 'N', 'I', 'T']
  | .blk _ => ['B', 'L', 'K']
  | .tail1 _ => ['T', 'A', 'I', 'L', '1']
  | .tail2 _ => ['T', 'A', 'I', 'L', '2']
  | .tail3 _ => ['T', 'A', 'I', 'L', '3']
  | .fin _ => ['F', 'I', 'N']

/-- An operation as it is written: its mnemonic and 8 hexadecimal digits (30_encoding.md R53). -/
def printOp (i : Instr) : List Char :=
  mnemonicChars i ++ [' ', '0', 'x'] ++ hexDigits 8 i.operand.toNat

/-- A HASH32 line as it is written, the seed and the bytes in hexadecimal (30_encoding.md R54). -/
def printHash (data : List Byte) (seed : Word) : List Char :=
  ['H', 'A', 'S', 'H', '3', '2', ' ', '0', 'x'] ++ hexDigits 8 seed.toNat ++ [','] ++
    data.flatMap fun b => [' ', '0', 'x'] ++ hexDigits 2 b.toNat

/-- A host register by name (10_state.md R17). -/
def hostRegNamed (t : List Char) : Option RegNum :=
  match t with
  | ['C', 'T', 'R', 'L'] => some 0
  | ['S', 'T', 'A', 'T', 'U', 'S'] => some 1
  | ['S', 'E', 'E', 'D'] => some 2
  | ['L', 'E', 'N'] => some 3
  | ['D', 'I', 'G', 'E', 'S', 'T'] => some 4
  | _ => none

/-- `WR reg, value`, `RD reg` and `poll` (46_host_interface.md R120, 95_test_vectors.md section 3). -/
def hostLine (line : List Char) : Option (List Move) :=
  match wordsFrom (fun c => isBlank c || c == ',') [] (uncomment false line) with
  | [] => some []
  | [['p', 'o', 'l', 'l']] => some [.waitDone]
  | [['R', 'D'], reg] => (hostRegNamed reg).map fun i => [.read i]
  | [['W', 'R'], reg, val] =>
    match hostRegNamed reg, numberBelow (2 ^ 32) val with
    | some i, some v => some [.write i (BitVec.ofNat 32 v)]
    | _, _ => none
  | _ => none

/-- A host program, one access a line. -/
def hostProgram (text : List Char) : Option (List Move) :=
  ((wordsFrom (· == '\n') [] text).mapM hostLine).map List.flatten

end Sys2Proof.Machine
end

