-- ==== Sys2Proof/Machine/Platform.lean ====
section
/-! DEFINITION. A platform with several engines (60_exceptions.md R149): independent instances, no shared
state. DESIGN CHOICE, safe: log 16. -/

namespace Sys2Proof.Machine

/-- The engines of a platform, each with its own registers and its own view of a message. -/
structure Platform where
  engines : List State
  deriving DecidableEq, Repr

/-- N_ENGINES engines after reset (00_scope.md R3, 60_exceptions.md R149). Engine number `k` draws its own free values,
so that nothing relates an unspecified value of one engine to one of another. DESIGN CHOICE, safe: logs 7, 16. -/
def Platform.reset : Platform := ⟨(List.range Config.nEngines).map fun k => { State.reset with freeSource := k }⟩

/-- Engine number `k` takes a step; the others keep their states. A number that names no engine changes nothing:
DESIGN CHOICE, safe, log 16. -/
def Platform.step (k : Nat) (p : Platform) : Host.Outcome Platform Fault Refusal :=
  match p.engines[k]? with
  | none => .next p
  | some s =>
    match Sys2Proof.Machine.step s with
    | .next t => .next ⟨p.engines.set k t⟩
    | .fault e => .fault e
    | .refused e => .refused e

end Sys2Proof.Machine
end

