-- ==== Sys2Proof/Machine/Call.lean ====
section
/-! DEFINITION. The host's side of one call `hash32(data, seed)` (46_host_interface.md R129). -/

namespace Sys2Proof.Machine

/-- A host's seed of any size reaches SEED as its low 32 bits, two's complement (46_host_interface.md R127). -/
def seedBits (seed : Int) : Word := BitVec.ofInt 32 seed

/-- The bytes of the message placed at rising offsets from `o` (46_host_interface.md R129 step 2). -/
def placeFrom : Nat → List Byte → List Move
  | _, [] => []
  | o, b :: bs => .place (BitVec.ofNat 32 o) b :: placeFrom (o + 1) bs

/-- Step 3, left out when SEED already holds the wanted seed (46_host_interface.md R129, R125). -/
def seedMoves : Option Int → List Move
  | none => []
  | some seed => [.write 2 (seedBits seed)]

/-- Steps 1 to 7 of the call protocol (46_host_interface.md R129). DESIGN CHOICE, unsafe: log 14. -/
def callMoves (data : List Byte) (seed : Option Int) : List Move :=
  .waitFree :: (placeFrom 0 data ++ seedMoves seed ++
    [.write 3 (BitVec.ofNat 32 data.length), .write 0 1, .waitDone, .read 4])

/-- A call joins the host's pending moves; a message of 2^32 bytes or more is refused at the host boundary
(46_host_interface.md R128, 93_implementation_defined.md U2). -/
def hostCall (data : List Byte) (seed : Option Int) (s : State) : Host.Outcome State Fault Refusal :=
  if data.length < 2 ^ 32 then .next (s.withMoves (s.moves ++ callMoves data seed))
  else .refused .messageTooLong

end Sys2Proof.Machine
end

