-- ==== Sys2Proof/Machine/Hash32.lean ====
section
/-! DEFINITION. The function the engine must compute, with no hardware in it (45_sequencer.md R100). -/

namespace Sys2Proof.Machine

/-- `data[j]` as a 32-bit value, zero-extended (20_memory.md R33). No use of it goes past the end,
where it is 0: DESIGN CHOICE, unsafe, log 19. -/
def dataByte (data : List Byte) (j : Nat) : Word := (data.getD j 0).setWidth 32

/-- The block word k of block i (45_sequencer.md R100). -/
def hashBlock (data : List Byte) (i : Nat) : Word :=
  dataByte data (4 * i) ||| shl32 (dataByte data (4 * i + 1)) 8 ||| shl32 (dataByte data (4 * i + 2)) 16
    ||| shl32 (dataByte data (4 * i + 3)) 24

/-- The block loop, steps 3 and 4 (45_sequencer.md R100). -/
def hashBlocks (data : List Byte) (seed : Word) : Word :=
  (List.range (data.length / 4)).foldl (fun h i => round h (hashBlock data i)) seed

/-- The tail word k1 of step 5 (45_sequencer.md R100, 43_tail.md R88). -/
def hashTailWord (data : List Byte) : Word :=
  let t := data.length % 4
  let p := 4 * (data.length / 4)
  let k := 0#32
  let k := if t = 3 then k ^^^ shl32 (dataByte data (p + 2)) 16 else k
  let k := if t ≥ 2 then k ^^^ shl32 (dataByte data (p + 1)) 8 else k
  if t ≥ 1 then k ^^^ dataByte data p else k

/-- Step 5 (45_sequencer.md R100). -/
def hashTail (data : List Byte) (h : Word) : Word :=
  if data.length % 4 > 0 then h ^^^ mixk (hashTailWord data) else h

/-- `hash32(data, seed)` (45_sequencer.md R100). -/
def hash32 (data : List Byte) (seed : Word) : Word :=
  fmix (hashTail data (hashBlocks data seed) ^^^ BitVec.ofNat 32 data.length)

end Sys2Proof.Machine
end

