-- ==== Sys2Proof/Machine/Trace.lean ====
section
/-! DEFINITION. The operations the engine issues: a trace of a transaction is a list of them (30_encoding.md
section 1, 45_sequencer.md R103). -/

namespace Sys2Proof.Machine

/-- The operations of the next `n` engine steps, ending where the engine has none. -/
def issuedOps : Nat → State → List Instr
  | 0, _ => []
  | n + 1, s =>
    match nextWord s with
    | .word w =>
      match decode w, engineStep s with
      | .ok i, .next t => i :: issuedOps n t
      | _, _ => []
    | .noStep => []
    | .pastLength => []

/-- A list of operations executed one after another (40_datapath_arith.md R72: in order, one at a time). -/
def execAll : List Instr → State → Host.Outcome State Fault Refusal
  | [], s => .next s
  | i :: is, s =>
    match exec i s with
    | .next t => execAll is t
    | .fault e => .fault e
    | .refused e => .refused e

end Sys2Proof.Machine
end

