-- ==== Sys2Proof/Safety.lean ====
section
/-! DEFINITION. What counts as a good state and a dutiful host, in the terms the statements use. -/

namespace Sys2Proof.Machine

/-- The invariant: MSG is in canonical form, and in ABSORB OFF is at most LEN, a multiple of 4 until the tail
has been absorbed and LEN after (10_state.md R12). -/
abbrev State.Inv (s : State) : Prop :=
  s.msg.wf = true ∧
    (s.phase = .absorb → s.off.toNat ≤ s.len.toNat ∧ (s.off.toNat % 4 = 0 ∨ s.off = s.len))

/-- The message of the next or the running transaction is `data`: LEN is its length, and its bytes stand at
offsets 0 to LEN - 1 of MSG (10_state.md R15, 70_reset_and_hazards.md R163). -/
def State.holds (s : State) (data : List Byte) : Prop :=
  s.len.toNat = data.length ∧ ∀ j (hj : j < data.length), s.msg.readByte j = some data[j]

/-- Every message byte can be read (20_memory.md R39, 70_reset_and_hazards.md R163). -/
def State.readable (s : State) : Prop := ∀ j, j < s.len.toNat → (s.msg.readByte j).isSome = true

/-- The bytes below LEN are the same in two memories. -/
def State.sameMessage (s t : State) : Prop := ∀ j, j < s.len.toNat → s.msg.readByte j = t.msg.readByte j

/-- A move that the host may make: no access to registers 5 to 7, and no message byte below LEN written while
BUSY (46_host_interface.md R132, the rows "must not" that a model refuses). -/
def Move.permitted (s : State) : Move → Prop
  | .engine => True
  | .read i => i.toNat ≤ 4
  | .write i _ => i.toNat ≤ 4
  | .place off _ => s.phase.busy = true → s.len.toNat ≤ off.toNat
  | .reset => True
  | .waitFree => True
  | .waitDone => True

/-- A host move that no running transaction can notice: a read of registers 0 to 4, a write to one of them (it is
dropped), a byte placed at LEN or above (46_host_interface.md R132, the "may" rows), whatever the length `len`. -/
def Move.harmless (len : Nat) : Move → Prop
  | .engine => False
  | .read i => i.toNat ≤ 4
  | .write i _ => i.toNat ≤ 4
  | .place off _ => len ≤ off.toNat
  | .reset => False
  | .waitFree => False
  | .waitDone => False

/-- `s` and `t` differ at most in H and OFF. -/
def State.sameButHOff (s t : State) : Prop := { s with h := 0, off := 0 } = { t with h := 0, off := 0 }

/-- `n` steps of the machine behind Host/Core.lean. -/
def runs (n : Nat) (s : State) : Host.Outcome State Fault Refusal := Host.Core.run Sys2Proof.core n s

/-- How many message bytes the engine asks for at its next step in ABSORB: 4 for a block, else what is left
(20_memory.md R35, 45_sequencer.md R102). -/
def State.bytesAsked (s : State) : Nat := min 4 (s.len.toNat - s.off.toNat)

end Sys2Proof.Machine
end

