-- ==== Sys2Proof/Certificates/Slice0/Obligations.lean ====
section
/-! DEFINITION. The statements about this machine. Each docstring names the rules of the spec it formalises. -/

open Sys2Proof Sys2Proof.Machine

/-! ## Operation words -/

/-- 30_encoding.md R51: the encoder of each operation, and that encoding and decoding are inverse. -/
def Obligations.EncodeAndDecodeAreInverse : Prop :=
  (∀ v : Word, (encode (.init v)).toNat = v.toNat ∧ (encode (.blk v)).toNat = 2 ^ 32 + v.toNat ∧
    (v.toNat < 2 ^ 8 → (encode (.tail1 v)).toNat = 2 * 2 ^ 32 + v.toNat) ∧
    (v.toNat < 2 ^ 16 → (encode (.tail2 v)).toNat = 3 * 2 ^ 32 + v.toNat) ∧
    (v.toNat < 2 ^ 24 → (encode (.tail3 v)).toNat = 4 * 2 ^ 32 + v.toNat) ∧
    (encode (.fin v)).toNat = 5 * 2 ^ 32 + v.toNat) ∧
  (∀ i : Instr, i.wf = true → decode (encode i) = .ok i) ∧
  (∀ (w : OpWord) (i : Instr), decode w = .ok i → i.wf = true ∧ encode i = w)

/-- 30_encoding.md R50: decoding, total on 35-bit values; how many words are valid; an invalid one is refused. -/
def Obligations.DecoderFollowsItsListing : Prop :=
  (∀ (w : OpWord) (op : Nat) (imm : Word), op = w.toNat / 2 ^ 32 → imm.toNat = w.toNat % 2 ^ 32 →
    (op = 0 → decode w = .ok (.init imm)) ∧
    (op = 1 → decode w = .ok (.blk imm)) ∧
    (op = 2 ∧ imm.toNat / 2 ^ 8 = 0 → decode w = .ok (.tail1 imm)) ∧
    (op = 3 ∧ imm.toNat / 2 ^ 16 = 0 → decode w = .ok (.tail2 imm)) ∧
    (op = 4 ∧ imm.toNat / 2 ^ 24 = 0 → decode w = .ok (.tail3 imm)) ∧
    (op = 5 → decode w = .ok (.fin imm)) ∧
    (op = 2 ∧ imm.toNat / 2 ^ 8 ≠ 0 ∨ op = 3 ∧ imm.toNat / 2 ^ 16 ≠ 0 ∨ op = 4 ∧ imm.toNat / 2 ^ 24 ≠ 0 ∨
      6 ≤ op → ∃ why, decode w = .invalid why)) ∧
  Nat.card (Subtype fun w : OpWord => ∃ i, decode w = .ok i) = 2 ^ 32 * 3 + 2 ^ 8 + 2 ^ 16 + 2 ^ 24 ∧
  (∀ (w : OpWord) (why : Invalid) (s : State), decode w = .invalid why →
    execWord w s = .refused .invalidOperationWord)

/-- 30_encoding.md R48, R49: TAILn words with a high bit set and codes 6 and 7 are no operation words, and the
sequencer never issues one. -/
def Obligations.SequencerIssuesOperationWordsOnly : Prop :=
  (∀ (n : Nat) (w : OpWord), 1 ≤ n → n ≤ 3 → w.toNat / 2 ^ 32 = 1 + n → 2 ^ (8 * n) ≤ w.toNat % 2 ^ 32 →
    decode w = .invalid .tailHighBits) ∧
  (∀ w : OpWord, 6 ≤ w.toNat / 2 ^ 32 → decode w = .invalid .reservedOp) ∧
  (∀ (s : State) (w : OpWord), nextWord s = .word w → ∃ i, decode w = .ok i ∧ i.wf = true)

/-- 30_encoding.md R46: the codes, and the table of masks and matches against the decoder. -/
def Obligations.OpcodeTableAgreesWithDecoder : Prop :=
  (∀ imm : Word, (Instr.init imm).opcode = 0 ∧ (Instr.blk imm).opcode = 1 ∧ (Instr.tail1 imm).opcode = 2 ∧
    (Instr.tail2 imm).opcode = 3 ∧ (Instr.tail3 imm).opcode = 4 ∧ (Instr.fin imm).opcode = 5) ∧
  opcodeTable.map (fun r => r.mnemonic) = ["INIT", "BLK", "TAIL1", "TAIL2", "TAIL3", "FIN"] ∧
  ∀ r ∈ opcodeTable, ∀ w : OpWord,
    r.selects w = true ↔ ∃ i, decode w = .ok i ∧ i.mnemonic = r.mnemonic

/-- 95_test_vectors.md section 2.5: words written out from the encoding decode to what they stand for. -/
def Obligations.WrittenOutWordsDecode : Prop :=
  decode 0b00000000000000000000000000000101010#35 = .ok (.init 0x2A) ∧
  decode 0b00101110100011100110110010101110100#35 = .ok (.blk 0x74736574) ∧
  decode 0b01000000000000000000000000011111111#35 = .ok (.tail1 0xFF) ∧
  decode 0b01100000000000000001111111111111111#35 = .ok (.tail2 0xFFFF) ∧
  decode 0b10000000000111111111111111111111111#35 = .ok (.tail3 0xFFFFFF) ∧
  decode 0b10111111111111111111111111111111111#35 = .ok (.fin 0xFFFFFFFF) ∧
  decode 0x200000100#35 = .invalid .tailHighBits ∧ decode 0x6DEADBEEF#35 = .invalid .reservedOp

/-- 30_encoding.md R53: an operation as it is written assembles to itself; only operands that fit assemble; a
comment changes nothing. -/
def Obligations.WrittenOperationsAssemble : Prop :=
  (∀ i : Instr, i.wf = true → assembleLine (printOp i) = some [i]) ∧
  (∀ (name arg : List Char) (i : Instr), operationOf name arg = some i →
    name = mnemonicChars i ∧ number arg = some i.operand.toNat ∧ i.wf = true) ∧
  (∀ (name arg : List Char) (i : Instr), i.wf = true → name = mnemonicChars i →
    number arg = some i.operand.toNat → operationOf name arg = some i) ∧
  (∀ line note : List Char, '"' ∉ line → ';' ∉ line → assembleLine (line ++ ';' :: note) = assembleLine line)

/-- 30_encoding.md R54: HASH32 expands to the canonical stream of its seed and its bytes; with 2^32 bytes or more, for
which there is no canonical stream, it is an assembly error (R53 on FIN's operand, deduced: log 24). -/
def Obligations.Hash32LineExpandsToTheStream : Prop :=
  ∀ (data : List Byte) (seed : Word),
    (data.length < 2 ^ 32 → assembleLine (printHash data seed) = some (stream data seed)) ∧
    (2 ^ 32 ≤ data.length → assembleLine (printHash data seed) = none)

/-! ## Arithmetic -/

/-- 40_datapath_arith.md R61, R62, R64: addition, multiplication and shifts on 32-bit values. -/
def Obligations.ArithmeticWrapsAt32Bits : Prop :=
  ∀ (a b : Word), (add32 a b).toNat = (a.toNat + b.toNat) % 2 ^ 32 ∧
    (mul32 a b).toNat = (a.toNat * b.toNat) % 2 ^ 32 ∧
    ∀ s, s ≤ 31 → (shr32 a s).toNat = a.toNat / 2 ^ s ∧ (shl32 a s).toNat = (a.toNat * 2 ^ s) % 2 ^ 32

/-- 40_datapath_arith.md R65: the rotate formula, and bit i goes to bit (i + r) mod 32. -/
def Obligations.RotateMovesEveryBit : Prop :=
  ∀ (x : Word) (r : Nat), 1 ≤ r → r ≤ 31 →
    rotl32 x r = (x <<< r) ||| (x >>> (32 - r)) ∧
    ∀ i, i < 32 → (rotl32 x r).getLsbD ((i + r) % 32) = x.getLsbD i

/-- 40_datapath_arith.md R67: MIXK written out, its value at 0, and that it is a bijection. -/
def Obligations.MixkIsABijection : Prop :=
  (∀ k : Word, mixk k = rotl32 (k * 0xCC9E2D51) 15 * 0x1B873593) ∧ mixk 0 = 0 ∧ Function.Bijective mixk

/-- 40_datapath_arith.md R68: ROUND written out, its value at (0, 0), truncating once gives the same, and for
each k it is a bijection in h. -/
def Obligations.RoundIsABijectionInH : Prop :=
  (∀ h k : Word, Sys2Proof.Machine.round h k = rotl32 (h ^^^ mixk k) 13 * 5 + 0xE6546B64) ∧
  (∀ h k : Word, (Sys2Proof.Machine.round h k).toNat =
    ((rotl32 (h ^^^ mixk k) 13).toNat * 5 + 0xE6546B64) % 2 ^ 32) ∧
  Sys2Proof.Machine.round 0 0 = 0xE6546B64 ∧
  ∀ k : Word, Function.Bijective fun h => Sys2Proof.Machine.round h k

/-- 40_datapath_arith.md R69: FMIX written out, its value at 0, and that it is a bijection. -/
def Obligations.FmixIsABijection : Prop :=
  (∀ h a b c d : Word, a = h ^^^ (h >>> 16) → b = a * 0x85EBCA6B → c = b ^^^ (b >>> 13) → d = c * 0xC2B2AE35 →
    fmix h = d ^^^ (d >>> 16)) ∧
  fmix 0 = 0 ∧ Function.Bijective fmix

/-! ## The message space -/

/-- 20_memory.md R33: MemRead is the little-endian sum of its bytes, each zero-extended. -/
def Obligations.MemReadIsTheLittleEndianSum : Prop :=
  ∀ (m : Memory) (addr n : Nat) (b : Nat → Byte), 1 ≤ n → n ≤ 4 →
    (∀ i, i < n → m.readByte (addr + i) = some (b i)) →
    ∃ v, m.memRead addr n = some v ∧ v.toNat = ∑ i ∈ Finset.range n, (b i).toNat * 2 ^ (8 * i) ∧
      (n = 4 → v = (b 0).setWidth 32 ||| ((b 1).setWidth 32 <<< 8) ||| ((b 2).setWidth 32 <<< 16) |||
        ((b 3).setWidth 32 <<< 24))

/-- 20_memory.md R39: with a byte the engine asks for unreadable, the engine stays in ABSORB with BUSY = 1 for
ever and reports nothing. -/
def Obligations.UnreadableByteLeavesTheEngineStuck : Prop :=
  ∀ (s : State) (j : Nat), s.phase = .absorb → s.off.toNat ≤ s.len.toNat → s.moves = [] →
    s.off.toNat ≤ j → j < s.off.toNat + s.bytesAsked → s.msg.readByte j = none →
    s.status = 1 ∧ ∀ n, runs n s = .next s

/-- 20_memory.md R31: the engine writes no memory; over whole steps a byte changes only where the host places one. -/
def Obligations.EngineNeverWritesMemory : Prop :=
  (∀ s t : State, engineStep s = .next t → (∀ a, t.msg.readByte a = s.msg.readByte a) ∧ t.reads = s.reads) ∧
  (∀ (s t : State) (a : Nat), step s = .next t → t.msg.readByte a ≠ s.msg.readByte a →
    ∃ off b rest, s.moves = .place off b :: rest ∧ a = off.toNat ∧ t.msg.readByte a = some b ∧
      (s.phase.busy = true → s.len.toNat ≤ a))

/-- 20_memory.md R42, 46_host_interface.md R132: placing a message byte, and that the model refuses one below LEN
while BUSY (93_implementation_defined.md U4; the refusal is log 12's). -/
def Obligations.PlacedByteIsReadBackOrRefused : Prop :=
  ∀ (s : State) (off : Word) (b : Byte) (rest : List Move), s.moves = .place off b :: rest →
    (s.phase.busy = true ∧ off.toNat < s.len.toNat → step s = .refused .messageChangedWhileBusy) ∧
    (s.phase.busy = false ∨ s.len.toNat ≤ off.toNat →
      ∃ m : Memory, step s = .next { s with msg := m, moves := rest } ∧ m.readByte off.toNat = some b ∧
        ∀ a, a ≠ off.toNat → m.readByte a = s.msg.readByte a)

/-- 20_memory.md R35, 93_implementation_defined.md U7: bytes at LEN and above have no influence on an engine step. -/
def Obligations.BytesBeyondLenHaveNoInfluence : Prop :=
  ∀ (s t : State) (m : Memory), s.Inv → (∀ j, j < s.len.toNat → m.readByte j = s.msg.readByte j) →
    engineStep s = .next t → engineStep { s with msg := m } = .next { t with msg := m }

/-! ## The operations -/

/-- 41_init.md R75: INIT's effect in any state, its word, when it is issued, and the flag. -/
def Obligations.InitLoadsTheSeed : Prop :=
  ∀ (imm : Word) (s : State),
    exec (.init imm) s = .next { s with h := imm, off := 0, phase := .absorb } ∧
    (encode (.init imm)).toNat = imm.toNat ∧
    (nextWord s = .word (encode (.init imm)) ↔ s.phase = .init ∧ imm = s.seed) ∧
    (s.phase = .init → s.status = 1) ∧
    State.status { s with h := imm, off := 0, phase := .absorb } = 1

/-- 42_block.md R80: BLK's effect with the document's steps written out, its word, when it is issued, and that OFF
does not wrap then. -/
def Obligations.BlkMixesOneBlock : Prop :=
  ∀ (imm : Word) (s : State) (a b c d e f : Word),
    a = imm * 0xCC9E2D51 → b = (a <<< 15) ||| (a >>> 17) → c = b * 0x1B873593 →
    d = s.h ^^^ c → e = (d <<< 13) ||| (d >>> 19) → f = e * 5 + 0xE6546B64 →
    exec (.blk imm) s = .next { s with h := f, off := s.off + 4 } ∧
    f = Sys2Proof.Machine.round s.h imm ∧
    (encode (.blk imm)).toNat = 2 ^ 32 + imm.toNat ∧
    (nextWord s = .word (encode (.blk imm)) ↔
      s.phase = .absorb ∧ s.off.toNat + 4 ≤ s.len.toNat ∧ s.msg.memRead s.off.toNat 4 = some imm) ∧
    (nextWord s = .word (encode (.blk imm)) → (s.off + 4).toNat = s.off.toNat + 4 ∧ s.status = 1 ∧
      State.status { s with h := f, off := s.off + 4 } = 1)

/-- 43_tail.md R85, R86, R87: the effect of TAIL1, TAIL2 and TAIL3 on every operand they have, their words, when
each is issued, and that PHASE stays. -/
def Obligations.TailMixesTheLastBytes : Prop :=
  ∀ (imm : Word) (s : State),
    (imm.toNat < 2 ^ 8 →
      exec (.tail1 imm) s = .next { s with h := s.h ^^^ mixk imm, off := s.off + 1 } ∧
      (encode (.tail1 imm)).toNat = 2 * 2 ^ 32 + imm.toNat ∧
      (nextWord s = .word (encode (.tail1 imm)) ↔
        s.phase = .absorb ∧ s.len.toNat = s.off.toNat + 1 ∧ s.msg.readByte s.off.toNat = some (imm.setWidth 8))) ∧
    (imm.toNat < 2 ^ 16 →
      exec (.tail2 imm) s = .next { s with h := s.h ^^^ mixk imm, off := s.off + 2 } ∧
      (encode (.tail2 imm)).toNat = 3 * 2 ^ 32 + imm.toNat ∧
      (nextWord s = .word (encode (.tail2 imm)) ↔
        s.phase = .absorb ∧ s.len.toNat = s.off.toNat + 2 ∧ s.msg.memRead s.off.toNat 2 = some imm)) ∧
    (imm.toNat < 2 ^ 24 →
      exec (.tail3 imm) s = .next { s with h := s.h ^^^ mixk imm, off := s.off + 3 } ∧
      (encode (.tail3 imm)).toNat = 4 * 2 ^ 32 + imm.toNat ∧
      (nextWord s = .word (encode (.tail3 imm)) ↔
        s.phase = .absorb ∧ s.len.toNat = s.off.toNat + 3 ∧ s.msg.memRead s.off.toNat 3 = some imm))

/-- The model's choice of log 9, on 30_encoding.md R48: a TAILn operand with a bit above the n bytes is refused. -/
def Obligations.TailOperandAboveItsBytesIsRefused : Prop :=
  ∀ (imm : Word) (s : State),
    (2 ^ 8 ≤ imm.toNat → exec (.tail1 imm) s = .refused .invalidOperand) ∧
    (2 ^ 16 ≤ imm.toNat → exec (.tail2 imm) s = .refused .invalidOperand) ∧
    (2 ^ 24 ≤ imm.toNat → exec (.tail3 imm) s = .refused .invalidOperand)

/-- 44_final.md R92: FIN's effect with the document's steps written out, its word, when it is issued, the flags and what
DIGEST reads from then on. -/
def Obligations.FinFinishesTheHash : Prop :=
  ∀ (imm : Word) (s : State) (x a b c d e : Word),
    x = s.h ^^^ imm → a = x ^^^ (x >>> 16) → b = a * 0x85EBCA6B → c = b ^^^ (b >>> 13) → d = c * 0xC2B2AE35 →
    e = d ^^^ (d >>> 16) →
    exec (.fin imm) s = .next { s with h := e, phase := .done } ∧
    e = fmix (s.h ^^^ imm) ∧
    (encode (.fin imm)).toNat = 5 * 2 ^ 32 + imm.toNat ∧
    (nextWord s = .word (encode (.fin imm)) ↔ s.phase = .absorb ∧ s.off = s.len ∧ imm = s.len) ∧
    State.status { s with h := e, phase := .done } = 2 ∧
    hostRead 4 { s with h := e, phase := .done } =
      .next { s with h := e, phase := .done, reads := (4, e) :: s.reads }

/-- 45_sequencer.md R107, 60_exceptions.md R140: there is no operand for which an operation is undefined. -/
def Obligations.EveryOperationCompletes : Prop :=
  ∀ (i : Instr) (s : State), i.wf = true → ∃ t, exec i s = .next t

/-- The frame of the six operations (10_state.md R10 to R15, 20_memory.md R31): SEED, LEN, every byte of MSG and the
host's side are unchanged, FIN leaves OFF, BLK and TAILn leave PHASE. -/
def Obligations.OperationsLeaveTheRestUnchanged : Prop :=
  ∀ (i : Instr) (s t : State), exec i s = .next t →
    t.seed = s.seed ∧ t.len = s.len ∧ (∀ a, t.msg.readByte a = s.msg.readByte a) ∧ t.moves = s.moves ∧
    t.reads = s.reads ∧ t.freeCount = s.freeCount ∧ t.freeSource = s.freeSource ∧
    (i.mnemonic = "FIN" → t.off = s.off) ∧
    (i.mnemonic ≠ "INIT" → i.mnemonic ≠ "FIN" → t.phase = s.phase)

/-! ## The sequencer and the step -/

/-- 45_sequencer.md R102: the word issued at a step, chosen from PHASE, OFF and LEN, and that the step executes it. -/
def Obligations.SequencerSelectsTheWord : Prop :=
  ∀ s : State,
    (s.phase = .init → nextWord s = .word (opWord 0 s.seed)) ∧
    (s.phase = .absorb → s.off.toNat ≤ s.len.toNat → ∀ (r : Nat) (v : Word), r = (s.len - s.off).toNat →
      (4 ≤ r → s.msg.memRead s.off.toNat 4 = some v → nextWord s = .word (opWord 1 v)) ∧
      (r = 3 → s.msg.memRead s.off.toNat 3 = some v → nextWord s = .word (opWord 4 v)) ∧
      (r = 2 → s.msg.memRead s.off.toNat 2 = some v → nextWord s = .word (opWord 3 v)) ∧
      (r = 1 → s.msg.memRead s.off.toNat 1 = some v → nextWord s = .word (opWord 2 v)) ∧
      (r = 0 → nextWord s = .word (opWord 5 s.len))) ∧
    (∀ w, nextWord s = .word w → ∃ i, decode w = .ok i ∧ engineStep s = exec i s)

/-- 45_sequencer.md R101: when the engine has a step, and that without one it changes nothing. -/
def Obligations.EngineHasAStepExactlyWhenBusyAndReadable : Prop :=
  ∀ s : State, (s.phase = .absorb → s.off.toNat ≤ s.len.toNat) →
    ((∃ w, nextWord s = .word w) ↔ s.phase = .init ∨ s.phase = .absorb ∧
      ∀ j, s.off.toNat ≤ j → j < s.off.toNat + s.bytesAsked → (s.msg.readByte j).isSome = true) ∧
    ((¬∃ w, nextWord s = .word w) → engineStep s = .next s)

/-- A step runs the issued operation: what step adds around exec is taking the engine's move off the list
(45_sequencer.md R101, R102; the list is log 1's). -/
def Obligations.StepRunsTheIssuedOperation : Prop :=
  ∀ (s : State) (w : OpWord) (i : Instr), nextWord s = .word w → decode w = .ok i →
    (s.moves = [] → step s = exec i s) ∧
    (∀ rest, s.moves = .engine :: rest → step s = exec i { s with moves := rest })

/-- Log 15: the state withFetchWord makes runs exactly the operation of the word, for every word of the table. -/
def Obligations.FetchedWordIsRunNext : Prop :=
  ∀ (s : State) (i : Instr), i.wf = true →
    decodeTableWord 40 (encode i).toNat = some i ∧
    step (s.withFetchWord 40 (encode i).toNat) = exec i (s.withFetchWord 40 (encode i).toNat) ∧
    (s.withFetchWord 40 (encode i).toNat).h = s.h

/-- 10_state.md R12 and the canonical form of MSG: every step keeps the invariant. -/
def Obligations.EveryStepKeepsTheInvariant : Prop :=
  ∀ s t : State, s.Inv → step s = .next t → t.Inv

/-- The invariant holds at reset. -/
def Obligations.ResetMeetsTheInvariant : Prop := State.reset.Inv

/-- 45_sequencer.md R107, 60_exceptions.md R140: from a state with the invariant a permitted move always gives a
next state. -/
def Obligations.PermittedMovesNeverStop : Prop :=
  ∀ s : State, s.Inv → (∀ m, s.moves.head? = some m → m.permitted s) → ∃ t, step s = .next t

/-- 10_state.md R13: PHASE's values with their flags, and the only places where it changes. -/
def Obligations.PhaseChangesInItsPlacesOnly : Prop :=
  (∀ p : Phase, Phase.ofCode p.code = p ∧ (p.code = 0 ↔ p = .idle) ∧ (p.code = 1 ↔ p = .init) ∧
    (p.code = 2 ↔ p = .absorb) ∧ (p.code = 3 ↔ p = .done) ∧
    (p.busy = true ↔ p = .init ∨ p = .absorb) ∧ (p.isDone = true ↔ p = .done)) ∧
  ∀ s t : State, step s = .next t → t.phase ≠ s.phase →
    (s.phase.busy = false ∧ t.phase = .init ∧ ∃ v rest, s.moves = .write 0 v :: rest ∧ v.getLsbD 0 = true) ∨
    (s.phase = .init ∧ t.phase = .absorb ∧ (s.moves = [] ∨ s.moves.head? = some .engine) ∧
      nextWord s = .word (encode (.init s.seed))) ∨
    (s.phase = .absorb ∧ t.phase = .done ∧ (s.moves = [] ∨ s.moves.head? = some .engine) ∧
      nextWord s = .word (encode (.fin s.len))) ∨
    (t.phase = .idle ∧ s.moves.head? = some .reset)

/-- 10_state.md R14, R15: the engine never changes SEED or LEN; only a host write while not BUSY and reset do. -/
def Obligations.SeedAndLenChangeByHostOrReset : Prop :=
  ∀ s t : State, step s = .next t →
    (t.seed ≠ s.seed → s.moves.head? = some (.write 2 t.seed) ∧ s.phase.busy = false ∨
      s.moves.head? = some .reset ∧ t.seed = 0) ∧
    (t.len ≠ s.len → s.moves.head? = some (.write 3 t.len) ∧ s.phase.busy = false ∨
      s.moves.head? = some .reset ∧ t.len = 0)

/-- 41_init.md R76: after INIT no operation reads SEED. -/
def Obligations.SeedIsUsedByInitOnly : Prop :=
  ∀ (s t : State) (v : Word), s.phase ≠ .init → engineStep s = .next t →
    engineStep { s with seed := v } = .next { t with seed := v }

/-! ## The host's side -/

/-- 10_state.md R18: STATUS is a view of PHASE with its two bits, and a write to it is dropped. -/
def Obligations.StatusIsAViewOfPhase : Prop :=
  ∀ s : State,
    (s.phase = .idle → s.status = 0) ∧ (s.phase = .init ∨ s.phase = .absorb → s.status = 1) ∧
    (s.phase = .done → s.status = 2) ∧
    s.status.getLsbD 0 = s.phase.busy ∧ s.status.getLsbD 1 = s.phase.isDone ∧
    (∀ j, 2 ≤ j → s.status.getLsbD j = false) ∧ (∀ v, hostWrite 1 v s = .next s)

/-- 46_host_interface.md R121: what each read returns, in every state; outside DONE a DIGEST read returns some value
of which nothing is said. No read changes anything else but the model's own record of it. -/
def Obligations.HostReadsReturnTheirRegisters : Prop :=
  ∀ s : State,
    hostRead 0 s = .next { s with reads := (0, 0) :: s.reads } ∧
    hostRead 1 s = .next { s with reads := (1, s.status) :: s.reads } ∧
    hostRead 2 s = .next { s with reads := (2, s.seed) :: s.reads } ∧
    hostRead 3 s = .next { s with reads := (3, s.len) :: s.reads } ∧
    (s.phase = .done → hostRead 4 s = .next { s with reads := (4, s.h) :: s.reads }) ∧
    (s.phase ≠ .done → ∃ v n, hostRead 4 s = .next { s with reads := (4, v) :: s.reads, freeCount := n })

/-- 46_host_interface.md R122: writes to SEED and LEN are taken in IDLE and DONE and dropped while BUSY. -/
def Obligations.OperandWritesAreDroppedWhileBusy : Prop :=
  ∀ (s : State) (v : Word),
    (s.phase = .idle ∨ s.phase = .done →
      hostWrite 2 v s = .next { s with seed := v } ∧ hostWrite 3 v s = .next { s with len := v }) ∧
    (s.phase = .init ∨ s.phase = .absorb → hostWrite 2 v s = .next s ∧ hostWrite 3 v s = .next s)

/-- 46_host_interface.md R123: writes to STATUS and DIGEST are dropped in every state. -/
def Obligations.ReadOnlyRegistersDropWrites : Prop :=
  ∀ (s : State) (v : Word) (rest : List Move),
    (s.moves = .write 1 v :: rest ∨ s.moves = .write 4 v :: rest) → step s = .next { s with moves := rest }

/-- 46_host_interface.md R124: START is accepted with bit 0 set in IDLE and DONE, changes PHASE only, and is dropped
otherwise; BUSY reads 1 and DONE reads 0 from then on. -/
def Obligations.StartIsAcceptedWhenNotBusy : Prop :=
  ∀ (s : State) (v : Word),
    (v.getLsbD 0 = true → s.phase = .idle ∨ s.phase = .done →
      hostWrite 0 v s = .next { s with phase := .init } ∧ State.status { s with phase := .init } = 1) ∧
    (v.getLsbD 0 = false ∨ s.phase = .init ∨ s.phase = .absorb → hostWrite 0 v s = .next s)

/-- 46_host_interface.md R130, 93_implementation_defined.md U9: accesses to registers 5, 6, 7 are refused. -/
def Obligations.NoRegisterFiveToSeven : Prop :=
  ∀ (s : State) (i : RegNum) (v : Word), 5 ≤ i.toNat →
    hostRead i s = .refused .noSuchRegister ∧ hostWrite i v s = .refused .noSuchRegister

/-- 70_reset_and_hazards.md R160: reset in any state, at once; MSG is not touched; with nothing more to come the
engine then waits in IDLE. Nothing is said of H and OFF. -/
def Obligations.ResetAbandonsEverything : Prop :=
  ∀ (s : State) (rest : List Move), s.moves = .reset :: rest →
    ∃ t, step s = .next t ∧ t.phase = .idle ∧ t.seed = 0 ∧ t.len = 0 ∧ t.status = 0 ∧ t.moves = rest ∧
      (∀ a, t.msg.readByte a = s.msg.readByte a) ∧ t.reads = s.reads ∧
      ∀ n, runs n { t with moves := [] } = .next { t with moves := [] }

/-- 10_state.md R24: the state after reset; CTRL and STATUS read 0. -/
def Obligations.ResetState : Prop :=
  State.reset.phase = .idle ∧ State.reset.seed = 0 ∧ State.reset.len = 0 ∧ State.reset.status = 0 ∧
  hostRead 0 State.reset = .next { State.reset with reads := [(0, 0)] } ∧
  hostRead 1 State.reset = .next { State.reset with reads := [(1, 0)] }

/-- 60_exceptions.md R143, R152: while BUSY no host move but reset changes anything of the transaction. -/
def Obligations.HostCannotDisturbATransaction : Prop :=
  ∀ (s t : State) (m : Move) (rest : List Move), s.phase.busy = true → s.moves = m :: rest → m ≠ .engine →
    m ≠ .reset → step s = .next t →
    t.h = s.h ∧ t.off = s.off ∧ t.phase = s.phase ∧ t.seed = s.seed ∧ t.len = s.len ∧ s.sameMessage t

/-- 60_exceptions.md R144: a host access and an engine step in either order leave the same H and OFF. -/
def Obligations.HostMoveAndEngineStepCommuteOnH : Prop :=
  ∀ (s : State) (m : Move), s.Inv → s.phase.busy = true → m.harmless s.len.toNat →
    ∃ t u, runs 2 { s with moves := [.engine, m] } = .next t ∧ runs 2 { s with moves := [m, .engine] } = .next u ∧
      t.h = u.h ∧ t.off = u.off

/-- 10_state.md R19, 70_reset_and_hazards.md R165: in DONE, until START or reset, DIGEST keeps its value. -/
def Obligations.DigestStaysUntilTheNextStart : Prop :=
  ∀ (s : State) (ms : List Move), s.phase = .done → s.moves = ms →
    (∀ m ∈ ms, m = .engine ∨ m.harmless 0 ∧ ∀ v, m = .write 0 v → v.getLsbD 0 = false) →
    ∃ t, runs ms.length s = .next t ∧ t.phase = .done ∧ t.h = s.h ∧
      hostRead 4 t = .next { t with reads := (4, s.h) :: t.reads }

/-- 46_host_interface.md R127, R128: a host's seed reaches the engine as its low 32 bits; a message of 2^32 bytes or
more is refused at the host boundary (93_implementation_defined.md U1, U2). -/
def Obligations.HostBoundaryTruncatesSeedAndRefusesLength : Prop :=
  (∀ z : Int, ((seedBits z).toNat : Int) = z % 2 ^ 32) ∧
  (∀ (data : List Byte) (seed : Option Int) (s : State), 2 ^ 32 ≤ data.length →
    hostCall data seed s = .refused .messageTooLong) ∧
  (∀ (data : List Byte) (seed : Option Int) (s : State), data.length < 2 ^ 32 →
    ∃ t, hostCall data seed s = .next t ∧ { t with moves := s.moves } = s)

/-- 60_exceptions.md R149: a step of one engine leaves every other engine as it was. -/
def Obligations.EnginesAreIndependent : Prop :=
  ∀ (p q : Platform) (k : Nat), p.step k = .next q →
    q.engines.length = p.engines.length ∧ (∀ j, j ≠ k → q.engines[j]? = p.engines[j]?) ∧
    (∀ s, p.engines[k]? = some s → ∃ t, step s = .next t ∧ q.engines[k]? = some t)

/-! ## The function and whole transactions -/

/-- 45_sequencer.md R109: the hash of the empty message. -/
def Obligations.EmptyMessageHashesToFmixOfSeed : Prop :=
  (∀ seed : Word, hash32 [] seed = fmix seed) ∧ hash32 [] 0 = 0 ∧ hash32 [] 1 = 0x514E28B7 ∧
  hash32 [] 0xFFFFFFFF = 0x81F16F39

/-- 43_tail.md R88, 42_block.md R81: the words of the function are the little-endian words of the message's bytes. -/
def Obligations.HashWordsAreLittleEndian : Prop :=
  ∀ data : List Byte,
    (data.length % 4 ≠ 0 → hashTailWord data = littleEndian (data.drop (4 * (data.length / 4)))) ∧
    ∀ i, i < data.length / 4 → hashBlock data i = littleEndian ((data.drop (4 * i)).take 4)

/-- 45_sequencer.md R103: the form of the canonical stream, and that the engine executes exactly it. The rule covers at
most 2^32 - 1 bytes; the form of `stream` beyond that is the model's choice (log 24). -/
def Obligations.EngineIssuesTheCanonicalStream : Prop :=
  (∀ (data : List Byte) (seed : Word), ∃ blocks tail,
    stream data seed = [.init seed] ++ blocks ++ tail ++ [.fin (BitVec.ofNat 32 data.length)] ∧
    blocks.length = data.length / 4 ∧ (∀ i ∈ blocks, i.mnemonic = "BLK") ∧
    (data.length % 4 = 0 → tail = []) ∧ (data.length % 4 = 1 → tail.map Instr.mnemonic = ["TAIL1"]) ∧
    (data.length % 4 = 2 → tail.map Instr.mnemonic = ["TAIL2"]) ∧
    (data.length % 4 = 3 → tail.map Instr.mnemonic = ["TAIL3"])) ∧
  (∀ (s : State) (data : List Byte) (n : Nat), s.phase = .init → s.holds data → stepCount data.length ≤ n →
    issuedOps n s = stream data s.seed)

/-- 45_sequencer.md R105: the number of operations of a transaction, and that DONE comes no sooner. The length of
`stream` for 2^32 bytes or more, of which no transaction consists, is the model's choice (log 24). -/
def Obligations.TransactionTakesItsStepCount : Prop :=
  (∀ (data : List Byte) (seed : Word), (stream data seed).length = 2 + data.length / 4 +
    (if data.length % 4 = 0 then 0 else 1)) ∧
  stepCount 0 = 2 ∧ stepCount (2 ^ 32 - 1) = 2 ^ 30 + 2 ∧
  ∀ (s : State) (data : List Byte) (k : Nat), s.phase = .init → s.moves = [] → s.holds data →
    (∃ t, runs k s = .next t ∧ (t.phase = .done ↔ stepCount data.length ≤ k))

/-- 45_sequencer.md R100, R103: executing the canonical stream, from any state, computes hash32. -/
def Obligations.CanonicalStreamComputesHash32 : Prop :=
  ∀ (data : List Byte) (seed : Word) (s : State), data.length < 2 ^ 32 →
    execAll (stream data seed) s =
      .next { s with h := hash32 data seed, off := BitVec.ofNat 32 data.length, phase := .done }

/-- 45_sequencer.md R104: from an accepted START, after the step count, H is hash32 of the message and the seed, OFF is
LEN, PHASE is DONE, and SEED, LEN and MSG are unchanged; DIGEST then reads it. -/
def Obligations.TransactionComputesHash32 : Prop :=
  ∀ (s : State) (data : List Byte) (v : Word), s.phase = .idle ∨ s.phase = .done → v.getLsbD 0 = true →
    s.moves = [.write 0 v] → s.holds data →
    ∃ t, runs (1 + stepCount data.length) s = .next t ∧
      t = { s with h := hash32 data s.seed, off := s.len, phase := .done, moves := [] } ∧
      hostRead 4 t = .next { t with reads := (4, hash32 data s.seed) :: t.reads }

/-- 45_sequencer.md R104, with R101 and 70_reset_and_hazards.md R164: from an accepted START, under every interleaving
of the engine's steps with host moves that keep the host's duties. -/
def Obligations.InterleavedTransactionComputesHash32 : Prop :=
  ∀ (s : State) (data : List Byte) (v : Word) (ms : List Move), s.phase = .idle ∨ s.phase = .done →
    v.getLsbD 0 = true → s.holds data → (∀ m ∈ ms, m = .engine ∨ m.harmless data.length) →
    ms.count .engine + 1 = stepCount data.length → s.moves = .write 0 v :: (ms ++ [.engine]) →
    ∃ t, runs (ms.length + 2) s = .next t ∧ t.phase = .done ∧ t.h = hash32 data s.seed ∧ t.off = s.len ∧
      t.seed = s.seed ∧ t.len = s.len ∧ (∀ j, j < data.length → t.msg.readByte j = s.msg.readByte j) ∧
      hostRead 4 t = .next { t with reads := (4, hash32 data s.seed) :: t.reads }

/-- 46_host_interface.md R129, R125: the call protocol returns hash32 of the message and of the seed written, or of the
seed SEED held when none is written. -/
def Obligations.CallReturnsHash32 : Prop :=
  ∀ (s : State) (data : List Byte) (seed : Option Int), s.phase.busy = false → s.moves = [] →
    data.length < 2 ^ 32 →
    ∃ s₀ n t, hostCall data seed s = .next s₀ ∧ runs n s₀ = .next t ∧ t.moves = [] ∧ t.phase = .done ∧
      t.reads.head? = some (4, hash32 data (seed.elim s.seed seedBits)) ∧ t.holds data

/-- 10_state.md R11, R24, 70_reset_and_hazards.md R161: what H and OFF hold before INIT cannot be observed, whatever
the host and the engine do from then on. -/
def Obligations.HAndOffBeforeInitCannotBeObserved : Prop :=
  ∀ (s t : State) (n : Nat) (s' : State), s.sameButHOff t → s.phase = .idle ∨ s.phase = .init →
    runs n s = .next s' →
    ∃ t', runs n t = .next t' ∧ s'.sameButHOff t' ∧ (s'.phase = .done → s'.h = t'.h)

/-- 93_implementation_defined.md U3 and 60_exceptions.md R149, in the form of logs 7 and 16: the engines of a platform
draw their unspecified values from sources of their own, at reset and ever after. -/
def Obligations.EnginesNeverShareASourceOfFreeValues : Prop :=
  (Platform.reset.engines.map State.freeSource).Nodup ∧
  ∀ (p q : Platform) (k : Nat), p.step k = .next q →
    q.engines.map State.freeSource = p.engines.map State.freeSource
end

