-- ==== Sys2Proof/Laws/Words.lean ====
section
/-! SUPPORT. The two fields of an operation word put together and taken apart. -/

namespace Sys2Proof

theorem opWord_toNat (op : BitVec 3) (imm : Word) :
    (opWord op imm).toNat = op.toNat * 2 ^ 32 + imm.toNat := by
  have h : (opWord op imm).toNat = op.toNat <<< 32 ||| imm.toNat := BitVec.toNat_append op imm
  rw [h, ← Nat.shiftLeft_add_eq_or_of_lt imm.isLt, Nat.shiftLeft_eq]

theorem opField_toNat (w : OpWord) : (opField w).toNat = w.toNat / 2 ^ 32 := by
  have := w.isLt
  simp only [opField, BitVec.extractLsb'_toNat, Nat.shiftRight_eq_div_pow]
  omega

theorem immField_toNat (w : OpWord) : (immField w).toNat = w.toNat % 2 ^ 32 := by
  simp only [immField, BitVec.extractLsb'_toNat, Nat.shiftRight_zero]

@[simp] theorem opField_opWord (op : BitVec 3) (imm : Word) : opField (opWord op imm) = op := by
  have := imm.isLt
  apply BitVec.eq_of_toNat_eq
  rw [opField_toNat, opWord_toNat]
  omega

@[simp] theorem immField_opWord (op : BitVec 3) (imm : Word) : immField (opWord op imm) = imm := by
  have := imm.isLt
  apply BitVec.eq_of_toNat_eq
  rw [immField_toNat, opWord_toNat]
  omega

/-- A word is its two fields put together. -/
theorem opWord_fields (w : OpWord) : opWord (opField w) (immField w) = w := by
  apply BitVec.eq_of_toNat_eq
  rw [opWord_toNat, opField_toNat, immField_toNat]
  omega

theorem opWord_inj {a c : BitVec 3} {b d : Word} : opWord a b = opWord c d ↔ a = c ∧ b = d := by
  constructor
  · intro h
    exact ⟨by simpa using congrArg opField h, by simpa using congrArg immField h⟩
  · rintro ⟨rfl, rfl⟩
    rfl

/-- `imm[31:8n] = 0` says that the operand is below 2^(8n). -/
theorem tailZeros_iff (n : Nat) (imm : Word) : tailZeros n imm = true ↔ imm.toNat < 2 ^ (8 * n) := by
  rw [tailZeros, beq_iff_eq, ← BitVec.toNat_inj, BitVec.toNat_ushiftRight, Nat.shiftRight_eq_div_pow,
    BitVec.toNat_ofNat, Nat.zero_mod, Nat.div_eq_zero_iff]
  have := Nat.two_pow_pos (8 * n)
  omega

end Sys2Proof
end

