-- ==== Sys2Proof/Laws/Exec.lean ====
section
/-! SUPPORT. What one step can do, said once: the inversion of exec, of the sequencer and of a turn. -/

namespace Sys2Proof.Machine

/-- Everything the shared action of the tail operations can do. -/
theorem tailMix_cases (n : Nat) (imm : Word) (s : State) :
    (imm.toNat < 2 ^ (8 * n) ∧ tailMix n imm s = .next (s.absorbed (s.h ^^^ mixk imm) n)) ∨
      (2 ^ (8 * n) ≤ imm.toNat ∧ tailMix n imm s = .refused .invalidOperand) := by
  by_cases h : tailZeros n imm = true
  · exact .inl ⟨(tailZeros_iff n imm).1 h, if_pos h⟩
  · exact .inr ⟨Nat.le_of_not_lt fun h' => h ((tailZeros_iff n imm).2 h'), if_neg h⟩

theorem issue_eq_word {op : BitVec 3} {o : Option Word} {w : OpWord} :
    issue op o = .word w ↔ ∃ imm, o = some imm ∧ w = opWord op imm := by
  cases o <;> simp [issue, eq_comm]

theorem issue_eq_noStep {op : BitVec 3} {o : Option Word} : issue op o = .noStep ↔ o = none := by
  cases o <;> simp [issue]

theorem issue_ne_pastLength {op : BitVec 3} {o : Option Word} : issue op o ≠ .pastLength := by
  cases o <;> simp [issue]

/-- A turn performs the first of the moves to come, the engine's when there is none. -/
theorem turn_cases (s : State) :
    (s.moves = [] ∧ step s = engineStep s) ∨
      ∃ m rest, s.moves = m :: rest ∧ step s = perform m (s.withMoves rest) := by
  unfold step turn
  cases h : s.moves with
  | nil => exact .inl ⟨rfl, rfl⟩
  | cons m rest => exact .inr ⟨m, rest, rfl, rfl⟩

end Sys2Proof.Machine
end

