-- ==== Sys2Proof/Laws/Memory.lean ====
section
/-! SUPPORT. The laws of MSG: a byte read after it was written, every other byte left alone, the canonical form
kept, and what a wide read gives. -/

namespace Sys2Proof.Machine

theorem Memory.readByte_writeByte_same (m : Memory) (a : Nat) (b : Byte) :
    (m.writeByte a b).readByte a = some b := by
  induction m with
  | nil => simp [Memory.writeByte, Memory.readByte]
  | cons c m ih =>
    unfold Memory.writeByte
    split
    · simp [Memory.readByte]
    · split
      · simp [Memory.readByte]
      · simp [Memory.readByte, Ne.symm ‹¬a = c.1›, ih]

theorem Memory.readByte_writeByte_other (m : Memory) {a j : Nat} (b : Byte) (h : j ≠ a) :
    (m.writeByte a b).readByte j = m.readByte j := by
  induction m with
  | nil => simp [Memory.writeByte, Memory.readByte, h.symm]
  | cons c m ih =>
    unfold Memory.writeByte
    split
    · simp [Memory.readByte, h.symm]
    · split
      · rename_i hac
        subst hac
        simp [Memory.readByte, h.symm]
      · simp [Memory.readByte, ih]

theorem Memory.readByte_writeByte (m : Memory) (a j : Nat) (b : Byte) :
    (m.writeByte a b).readByte j = if j = a then some b else m.readByte j := by
  split
  · rename_i h
    rw [h, readByte_writeByte_same]
  · exact readByte_writeByte_other m b ‹_›

theorem Memory.writeByte_risingFrom (m : Memory) {lo a : Nat} (b : Byte) (hlo : lo ≤ a) (ha : a < 2 ^ 32)
    (h : m.risingFrom lo = true) : (m.writeByte a b).risingFrom lo = true := by
  induction m generalizing lo with
  | nil => simp [Memory.writeByte, Memory.risingFrom]; omega
  | cons c m ih =>
    simp only [Memory.risingFrom, Bool.and_eq_true, decide_eq_true_eq] at h
    unfold Memory.writeByte
    split
    · simp only [Memory.risingFrom, Bool.and_eq_true, decide_eq_true_eq]
      exact ⟨⟨hlo, ha⟩, ⟨by omega, h.1.2⟩, h.2⟩
    · split
      · rename_i hac
        subst hac
        simp only [Memory.risingFrom, Bool.and_eq_true, decide_eq_true_eq]
        exact h
      · simp only [Memory.risingFrom, Bool.and_eq_true, decide_eq_true_eq]
        exact ⟨h.1, ih (by omega) h.2⟩

/-- Every write keeps the canonical form. -/
theorem Memory.writeByte_wf (m : Memory) {a : Nat} (b : Byte) (ha : a < 2 ^ 32) (h : m.wf = true) :
    (m.writeByte a b).wf = true :=
  writeByte_risingFrom m b (Nat.zero_le a) ha h

theorem Memory.writeWord_wf (m : Memory) (v : Word) {a n : Nat} (ha : a + n ≤ 2 ^ 32) (h : m.wf = true) :
    (m.writeWord v a n).wf = true := by
  induction n generalizing m v a with
  | zero => exact h
  | succ n ih => exact ih _ _ (by omega) (writeByte_wf m _ (by omega) h)

theorem State.reset_msg_wf : State.reset.msg.wf = true := rfl

/-- A wide read looks at no byte outside its range. -/
theorem Memory.memRead_congr {m m' : Memory} {a n : Nat}
    (h : ∀ j, a ≤ j → j < a + n → m.readByte j = m'.readByte j) : m.memRead a n = m'.memRead a n := by
  induction n generalizing a with
  | zero => rfl
  | succ n ih =>
    simp only [Memory.memRead, h a (Nat.le_refl a) (by omega)]
    rw [ih fun j h1 h2 => h j (by omega) (by omega)]

/-- A wide read of n bytes is below 2^(8n): its bytes are zero-extended. -/
theorem Memory.memRead_lt {m : Memory} {a n : Nat} {v : Word} (h : m.memRead a n = some v) :
    v.toNat < 2 ^ (8 * n) := by
  induction n generalizing a v with
  | zero => simp [Memory.memRead] at h; simp [← h]
  | succ n ih =>
    rw [Memory.memRead] at h
    cases hb : m.readByte a with
    | none => simp [hb] at h
    | some b =>
      cases hr : m.memRead (a + 1) n with
      | none => simp [hb, hr] at h
      | some r =>
        simp only [hb, hr, Option.bind_eq_bind, Option.bind_some, Option.pure_def, Option.some.injEq] at h
        have h1 := ih hr
        have h2 := b.isLt
        have h3 : 2 ^ (8 * (n + 1)) = 2 ^ (8 * n) * 2 ^ 8 := by rw [← Nat.pow_add]; congr 1
        rw [← h, BitVec.toNat_or]
        apply Nat.or_lt_two_pow
        · rw [BitVec.toNat_setWidth]
          have := Nat.mod_le b.toNat (2 ^ 32)
          have := Nat.two_pow_pos (8 * n)
          omega
        · rw [BitVec.toNat_shiftLeft, Nat.shiftLeft_eq]
          have := Nat.mod_le (r.toNat * 2 ^ 8) (2 ^ 32)
          omega

/-- A wide read gives a word exactly when each of its bytes can be read. -/
theorem Memory.memRead_isSome {m : Memory} {a n : Nat} :
    (m.memRead a n).isSome = true ↔ ∀ j, a ≤ j → j < a + n → (m.readByte j).isSome = true := by
  induction n generalizing a with
  | zero => simp only [Memory.memRead, Option.isSome_some, true_iff]; intro j h1 h2; omega
  | succ n ih =>
    have hsplit : (∀ j, a ≤ j → j < a + (n + 1) → (m.readByte j).isSome = true) ↔
        (m.readByte a).isSome = true ∧ ∀ j, a + 1 ≤ j → j < a + 1 + n → (m.readByte j).isSome = true := by
      constructor
      · exact fun h => ⟨h a (Nat.le_refl a) (by omega), fun j h1 h2 => h j (by omega) (by omega)⟩
      · rintro ⟨h0, h⟩ j h1 h2
        rcases Nat.eq_or_lt_of_le h1 with rfl | h3
        · exact h0
        · exact h j h3 (by omega)
    rw [hsplit, ← ih, Memory.memRead]
    cases m.readByte a <;> cases m.memRead (a + 1) n <;> simp

theorem Memory.readByte_writeWord_below (m : Memory) (v : Word) {a n j : Nat} (h : j < a) :
    (m.writeWord v a n).readByte j = m.readByte j := by
  induction n generalizing m v a with
  | zero => rfl
  | succ n ih =>
    rw [Memory.writeWord, ih _ _ (by omega), readByte_writeByte_other m _ (by omega)]

theorem word_bytes (v : Word) : (v.setWidth 8).setWidth 32 ||| ((v >>> 8) <<< 8) = v := by
  ext i hi
  simp only [BitVec.getElem_or, BitVec.getElem_setWidth, BitVec.getElem_shiftLeft, BitVec.getLsbD_setWidth]
  by_cases h : i < 8
  · simp [h, BitVec.getLsbD_eq_getElem hi]
  · simp [h, show 8 + (i - 8) = i by omega, BitVec.getLsbD_eq_getElem hi]

/-- A word written byte by byte reads back, if it fits. -/
theorem Memory.memRead_writeWord (m : Memory) (v : Word) {a n : Nat} (h : v.toNat < 2 ^ (8 * n)) :
    (m.writeWord v a n).memRead a n = some v := by
  induction n generalizing m v a with
  | zero =>
    have : v = 0#32 := BitVec.eq_of_toNat_eq (by simpa using h)
    simp [Memory.memRead, this]
  | succ n ih =>
    have hv : (v >>> 8).toNat < 2 ^ (8 * n) := by
      rw [BitVec.toNat_ushiftRight, Nat.shiftRight_eq_div_pow]
      rw [show 8 * (n + 1) = 8 * n + 8 by omega, Nat.pow_add] at h
      exact Nat.div_lt_of_lt_mul (by rw [Nat.mul_comm]; exact h)
    rw [Memory.writeWord, Memory.memRead, readByte_writeWord_below _ _ (Nat.lt_succ_self a),
      readByte_writeByte_same, ih _ _ hv]
    simp [word_bytes]

end Sys2Proof.Machine
end

