-- ==== Sys2Proof/Laws/State.lean ====
section
/-! SUPPORT. What each named update of the state does to each field. Each is true by rfl; `(rfl)` keeps simp from
checking it again by unfolding, which would evaluate the hash arithmetic inside a state. -/

namespace Sys2Proof.Machine

variable (s : State)

@[simp] theorem State.beginWalk_h (imm : Word) : (s.beginWalk imm).h = imm := (rfl)
@[simp] theorem State.beginWalk_off (imm : Word) : (s.beginWalk imm).off = 0 := (rfl)
@[simp] theorem State.beginWalk_phase (imm : Word) : (s.beginWalk imm).phase = .absorb := (rfl)
@[simp] theorem State.beginWalk_seed (imm : Word) : (s.beginWalk imm).seed = s.seed := (rfl)
@[simp] theorem State.beginWalk_len (imm : Word) : (s.beginWalk imm).len = s.len := (rfl)
@[simp] theorem State.beginWalk_msg (imm : Word) : (s.beginWalk imm).msg = s.msg := (rfl)
@[simp] theorem State.beginWalk_moves (imm : Word) : (s.beginWalk imm).moves = s.moves := (rfl)
@[simp] theorem State.beginWalk_reads (imm : Word) : (s.beginWalk imm).reads = s.reads := (rfl)
@[simp] theorem State.beginWalk_freeCount (imm : Word) : (s.beginWalk imm).freeCount = s.freeCount := (rfl)
@[simp] theorem State.beginWalk_freeSource (imm : Word) : (s.beginWalk imm).freeSource = s.freeSource := (rfl)

@[simp] theorem State.absorbed_h (h : Word) (n : Nat) : (s.absorbed h n).h = h := (rfl)
@[simp] theorem State.absorbed_off (h : Word) (n : Nat) : (s.absorbed h n).off = s.off + BitVec.ofNat 32 n := (rfl)
@[simp] theorem State.absorbed_phase (h : Word) (n : Nat) : (s.absorbed h n).phase = s.phase := (rfl)
@[simp] theorem State.absorbed_seed (h : Word) (n : Nat) : (s.absorbed h n).seed = s.seed := (rfl)
@[simp] theorem State.absorbed_len (h : Word) (n : Nat) : (s.absorbed h n).len = s.len := (rfl)
@[simp] theorem State.absorbed_msg (h : Word) (n : Nat) : (s.absorbed h n).msg = s.msg := (rfl)
@[simp] theorem State.absorbed_moves (h : Word) (n : Nat) : (s.absorbed h n).moves = s.moves := (rfl)
@[simp] theorem State.absorbed_reads (h : Word) (n : Nat) : (s.absorbed h n).reads = s.reads := (rfl)
@[simp] theorem State.absorbed_freeCount (h : Word) (n : Nat) : (s.absorbed h n).freeCount = s.freeCount := (rfl)
@[simp] theorem State.absorbed_freeSource (h : Word) (n : Nat) : (s.absorbed h n).freeSource = s.freeSource := (rfl)

@[simp] theorem State.finished_h (h : Word) : (s.finished h).h = h := (rfl)
@[simp] theorem State.finished_off (h : Word) : (s.finished h).off = s.off := (rfl)
@[simp] theorem State.finished_phase (h : Word) : (s.finished h).phase = .done := (rfl)
@[simp] theorem State.finished_seed (h : Word) : (s.finished h).seed = s.seed := (rfl)
@[simp] theorem State.finished_len (h : Word) : (s.finished h).len = s.len := (rfl)
@[simp] theorem State.finished_msg (h : Word) : (s.finished h).msg = s.msg := (rfl)
@[simp] theorem State.finished_moves (h : Word) : (s.finished h).moves = s.moves := (rfl)
@[simp] theorem State.finished_reads (h : Word) : (s.finished h).reads = s.reads := (rfl)
@[simp] theorem State.finished_freeCount (h : Word) : (s.finished h).freeCount = s.freeCount := (rfl)
@[simp] theorem State.finished_freeSource (h : Word) : (s.finished h).freeSource = s.freeSource := (rfl)

@[simp] theorem State.started_h : (s.started).h = s.h := (rfl)
@[simp] theorem State.started_off : (s.started).off = s.off := (rfl)
@[simp] theorem State.started_phase : (s.started).phase = .init := (rfl)
@[simp] theorem State.started_seed : (s.started).seed = s.seed := (rfl)
@[simp] theorem State.started_len : (s.started).len = s.len := (rfl)
@[simp] theorem State.started_msg : (s.started).msg = s.msg := (rfl)
@[simp] theorem State.started_moves : (s.started).moves = s.moves := (rfl)
@[simp] theorem State.started_reads : (s.started).reads = s.reads := (rfl)
@[simp] theorem State.started_freeCount : (s.started).freeCount = s.freeCount := (rfl)
@[simp] theorem State.started_freeSource : (s.started).freeSource = s.freeSource := (rfl)

@[simp] theorem State.setSeed_h (v : Word) : (s.setSeed v).h = s.h := (rfl)
@[simp] theorem State.setSeed_off (v : Word) : (s.setSeed v).off = s.off := (rfl)
@[simp] theorem State.setSeed_phase (v : Word) : (s.setSeed v).phase = s.phase := (rfl)
@[simp] theorem State.setSeed_seed (v : Word) : (s.setSeed v).seed = v := (rfl)
@[simp] theorem State.setSeed_len (v : Word) : (s.setSeed v).len = s.len := (rfl)
@[simp] theorem State.setSeed_msg (v : Word) : (s.setSeed v).msg = s.msg := (rfl)
@[simp] theorem State.setSeed_moves (v : Word) : (s.setSeed v).moves = s.moves := (rfl)
@[simp] theorem State.setSeed_reads (v : Word) : (s.setSeed v).reads = s.reads := (rfl)
@[simp] theorem State.setSeed_freeCount (v : Word) : (s.setSeed v).freeCount = s.freeCount := (rfl)
@[simp] theorem State.setSeed_freeSource (v : Word) : (s.setSeed v).freeSource = s.freeSource := (rfl)

@[simp] theorem State.setLen_h (v : Word) : (s.setLen v).h = s.h := (rfl)
@[simp] theorem State.setLen_off (v : Word) : (s.setLen v).off = s.off := (rfl)
@[simp] theorem State.setLen_phase (v : Word) : (s.setLen v).phase = s.phase := (rfl)
@[simp] theorem State.setLen_seed (v : Word) : (s.setLen v).seed = s.seed := (rfl)
@[simp] theorem State.setLen_len (v : Word) : (s.setLen v).len = v := (rfl)
@[simp] theorem State.setLen_msg (v : Word) : (s.setLen v).msg = s.msg := (rfl)
@[simp] theorem State.setLen_moves (v : Word) : (s.setLen v).moves = s.moves := (rfl)
@[simp] theorem State.setLen_reads (v : Word) : (s.setLen v).reads = s.reads := (rfl)
@[simp] theorem State.setLen_freeCount (v : Word) : (s.setLen v).freeCount = s.freeCount := (rfl)
@[simp] theorem State.setLen_freeSource (v : Word) : (s.setLen v).freeSource = s.freeSource := (rfl)

@[simp] theorem State.placed_h (o : Word) (b : Byte) : (s.placed o b).h = s.h := (rfl)
@[simp] theorem State.placed_off (o : Word) (b : Byte) : (s.placed o b).off = s.off := (rfl)
@[simp] theorem State.placed_phase (o : Word) (b : Byte) : (s.placed o b).phase = s.phase := (rfl)
@[simp] theorem State.placed_seed (o : Word) (b : Byte) : (s.placed o b).seed = s.seed := (rfl)
@[simp] theorem State.placed_len (o : Word) (b : Byte) : (s.placed o b).len = s.len := (rfl)
@[simp] theorem State.placed_msg (o : Word) (b : Byte) : (s.placed o b).msg = s.msg.writeByte o.toNat b := (rfl)
@[simp] theorem State.placed_moves (o : Word) (b : Byte) : (s.placed o b).moves = s.moves := (rfl)
@[simp] theorem State.placed_reads (o : Word) (b : Byte) : (s.placed o b).reads = s.reads := (rfl)
@[simp] theorem State.placed_freeCount (o : Word) (b : Byte) : (s.placed o b).freeCount = s.freeCount := (rfl)
@[simp] theorem State.placed_freeSource (o : Word) (b : Byte) : (s.placed o b).freeSource = s.freeSource := (rfl)

@[simp] theorem State.recorded_h (i : RegNum) (v : Word) : (s.recorded i v).h = s.h := (rfl)
@[simp] theorem State.recorded_off (i : RegNum) (v : Word) : (s.recorded i v).off = s.off := (rfl)
@[simp] theorem State.recorded_phase (i : RegNum) (v : Word) : (s.recorded i v).phase = s.phase := (rfl)
@[simp] theorem State.recorded_seed (i : RegNum) (v : Word) : (s.recorded i v).seed = s.seed := (rfl)
@[simp] theorem State.recorded_len (i : RegNum) (v : Word) : (s.recorded i v).len = s.len := (rfl)
@[simp] theorem State.recorded_msg (i : RegNum) (v : Word) : (s.recorded i v).msg = s.msg := (rfl)
@[simp] theorem State.recorded_moves (i : RegNum) (v : Word) : (s.recorded i v).moves = s.moves := (rfl)
@[simp] theorem State.recorded_reads (i : RegNum) (v : Word) : (s.recorded i v).reads = (i, v) :: s.reads := (rfl)
@[simp] theorem State.recorded_freeCount (i : RegNum) (v : Word) : (s.recorded i v).freeCount = s.freeCount := (rfl)
@[simp] theorem State.recorded_freeSource (i : RegNum) (v : Word) : (s.recorded i v).freeSource = s.freeSource := (rfl)

@[simp] theorem State.drawn_h (n : Nat) : (s.drawn n).h = s.h := (rfl)
@[simp] theorem State.drawn_off (n : Nat) : (s.drawn n).off = s.off := (rfl)
@[simp] theorem State.drawn_phase (n : Nat) : (s.drawn n).phase = s.phase := (rfl)
@[simp] theorem State.drawn_seed (n : Nat) : (s.drawn n).seed = s.seed := (rfl)
@[simp] theorem State.drawn_len (n : Nat) : (s.drawn n).len = s.len := (rfl)
@[simp] theorem State.drawn_msg (n : Nat) : (s.drawn n).msg = s.msg := (rfl)
@[simp] theorem State.drawn_moves (n : Nat) : (s.drawn n).moves = s.moves := (rfl)
@[simp] theorem State.drawn_reads (n : Nat) : (s.drawn n).reads = s.reads := (rfl)
@[simp] theorem State.drawn_freeCount (n : Nat) : (s.drawn n).freeCount = s.freeCount + n := (rfl)
@[simp] theorem State.drawn_freeSource (n : Nat) : (s.drawn n).freeSource = s.freeSource := (rfl)

@[simp] theorem State.withMoves_h (ms : List Move) : (s.withMoves ms).h = s.h := (rfl)
@[simp] theorem State.withMoves_off (ms : List Move) : (s.withMoves ms).off = s.off := (rfl)
@[simp] theorem State.withMoves_phase (ms : List Move) : (s.withMoves ms).phase = s.phase := (rfl)
@[simp] theorem State.withMoves_seed (ms : List Move) : (s.withMoves ms).seed = s.seed := (rfl)
@[simp] theorem State.withMoves_len (ms : List Move) : (s.withMoves ms).len = s.len := (rfl)
@[simp] theorem State.withMoves_msg (ms : List Move) : (s.withMoves ms).msg = s.msg := (rfl)
@[simp] theorem State.withMoves_moves (ms : List Move) : (s.withMoves ms).moves = ms := (rfl)
@[simp] theorem State.withMoves_reads (ms : List Move) : (s.withMoves ms).reads = s.reads := (rfl)
@[simp] theorem State.withMoves_freeCount (ms : List Move) : (s.withMoves ms).freeCount = s.freeCount := (rfl)
@[simp] theorem State.withMoves_freeSource (ms : List Move) : (s.withMoves ms).freeSource = s.freeSource := (rfl)

@[simp] theorem State.resetEvent_h : (s.resetEvent).h = Config.freeValue s.freeSource s.freeCount := (rfl)
@[simp] theorem State.resetEvent_off : (s.resetEvent).off = Config.freeValue s.freeSource (s.freeCount + 1) := (rfl)
@[simp] theorem State.resetEvent_phase : (s.resetEvent).phase = .idle := (rfl)
@[simp] theorem State.resetEvent_seed : (s.resetEvent).seed = 0 := (rfl)
@[simp] theorem State.resetEvent_len : (s.resetEvent).len = 0 := (rfl)
@[simp] theorem State.resetEvent_msg : (s.resetEvent).msg = s.msg := (rfl)
@[simp] theorem State.resetEvent_moves : (s.resetEvent).moves = s.moves := (rfl)
@[simp] theorem State.resetEvent_reads : (s.resetEvent).reads = s.reads := (rfl)
@[simp] theorem State.resetEvent_freeCount : (s.resetEvent).freeCount = s.freeCount + 2 := (rfl)
@[simp] theorem State.resetEvent_freeSource : (s.resetEvent).freeSource = s.freeSource := (rfl)

end Sys2Proof.Machine
end

