-- ==== Sys2Proof/Laws/Engine.lean ====
section
/-! SUPPORT. What the sequencer selects and what an engine step can do, each said once. -/

namespace Sys2Proof.Machine

/-- What the sequencer selects in ABSORB, by the bytes that are left. -/
theorem absorbWord_cases (s : State) :
    (s.len.toNat < s.off.toNat ∧ absorbWord s = .pastLength) ∨
    (s.off.toNat = s.len.toNat ∧ absorbWord s = .word (opWord 5 s.len)) ∨
    (s.len.toNat = s.off.toNat + 1 ∧ absorbWord s = issue 2 (s.msg.memRead s.off.toNat 1)) ∨
    (s.len.toNat = s.off.toNat + 2 ∧ absorbWord s = issue 3 (s.msg.memRead s.off.toNat 2)) ∨
    (s.len.toNat = s.off.toNat + 3 ∧ absorbWord s = issue 4 (s.msg.memRead s.off.toNat 3)) ∨
    (s.off.toNat + 4 ≤ s.len.toNat ∧ absorbWord s = issue 1 (s.msg.memRead s.off.toNat 4)) := by
  unfold absorbWord
  split
  · exact .inl ⟨‹_›, rfl⟩
  · split
    · exact .inr (.inl ⟨by omega, rfl⟩)
    · exact .inr (.inr (.inl ⟨by omega, rfl⟩))
    · exact .inr (.inr (.inr (.inl ⟨by omega, rfl⟩)))
    · exact .inr (.inr (.inr (.inr (.inl ⟨by omega, rfl⟩))))
    · rename_i h0 h1 h2 h3
      have h0 : s.len.toNat - s.off.toNat ≠ 0 := h0
      have h1 : s.len.toNat - s.off.toNat ≠ 1 := h1
      have h2 : s.len.toNat - s.off.toNat ≠ 2 := h2
      have h3 : s.len.toNat - s.off.toNat ≠ 3 := h3
      exact .inr (.inr (.inr (.inr (.inr ⟨by omega, rfl⟩))))

/-- When the sequencer issues a given word. -/
theorem nextWord_eq_word (s : State) (op : BitVec 3) (v : Word) : nextWord s = .word (opWord op v) ↔
    (op = 0 ∧ s.phase = .init ∧ v = s.seed) ∨
    (op = 5 ∧ s.phase = .absorb ∧ s.off = s.len ∧ v = s.len) ∨
    (op = 2 ∧ s.phase = .absorb ∧ s.len.toNat = s.off.toNat + 1 ∧ s.msg.memRead s.off.toNat 1 = some v) ∨
    (op = 3 ∧ s.phase = .absorb ∧ s.len.toNat = s.off.toNat + 2 ∧ s.msg.memRead s.off.toNat 2 = some v) ∨
    (op = 4 ∧ s.phase = .absorb ∧ s.len.toNat = s.off.toNat + 3 ∧ s.msg.memRead s.off.toNat 3 = some v) ∨
    (op = 1 ∧ s.phase = .absorb ∧ s.off.toNat + 4 ≤ s.len.toNat ∧ s.msg.memRead s.off.toNat 4 = some v) := by
  have e0 : s.off = s.len ↔ s.off.toNat = s.len.toNat := BitVec.toNat_inj.symm
  unfold nextWord
  cases hp : s.phase <;> simp [operandInit, issue_eq_word, opWord_inj]
  rw [e0]
  rcases absorbWord_cases s with ⟨h, e⟩ | ⟨h, e⟩ | ⟨h, e⟩ | ⟨h, e⟩ | ⟨h, e⟩ | ⟨h, e⟩ <;> rw [e]
  all_goals
    simp [issue_eq_word, opWord_inj]
    grind

/-- An issued tail word whose operand fits executes as the tail operation's shared action. -/
theorem execWord_tail {n : Nat} {op : BitVec 3} {v : Word} {s : State} (hop : op.toNat = 1 + n)
    (h1 : 1 ≤ n) (h3 : n ≤ 3) (hv : v.toNat < 2 ^ (8 * n)) :
    execWord (opWord op v) s = .next (s.absorbed (s.h ^^^ mixk v) n) := by
  have hz : tailZeros n v = true := (tailZeros_iff n v).2 hv
  have : n = 1 ∨ n = 2 ∨ n = 3 := by omega
  rcases this with rfl | rfl | rfl <;>
    simp [execWord, decode, decodeTail, hop, hz, exec, execTail1, execTail2, execTail3, tailMix]

/-- Why the engine has no step: IDLE, DONE, or a message byte it asks for cannot be read. -/
abbrev State.waits (s : State) : Prop :=
  s.phase = .idle ∨ s.phase = .done ∨
    s.phase = .absorb ∧ s.off.toNat < s.len.toNat ∧ s.msg.memRead s.off.toNat s.bytesAsked = none

/-- Everything an engine step can do: nothing, the refusal of log 11, INIT, FIN, a block, or the tail. -/
theorem engineStep_cases (s : State) :
    (s.waits ∧ nextWord s = .noStep ∧ engineStep s = .next s) ∨
    (s.phase = .absorb ∧ s.len.toNat < s.off.toNat ∧ engineStep s = .refused .offsetPastLength) ∨
    (s.phase = .init ∧ engineStep s = .next (s.beginWalk s.seed)) ∨
    (s.phase = .absorb ∧ s.off = s.len ∧ engineStep s = .next (s.finished (fmix (s.h ^^^ s.len)))) ∨
    (∃ v, s.phase = .absorb ∧ s.off.toNat + 4 ≤ s.len.toNat ∧ s.msg.memRead s.off.toNat 4 = some v ∧
      engineStep s = .next (s.absorbed (round s.h v) 4)) ∨
    (∃ n v, s.phase = .absorb ∧ 1 ≤ n ∧ n ≤ 3 ∧ s.len.toNat = s.off.toNat + n ∧
      s.msg.memRead s.off.toNat n = some v ∧ engineStep s = .next (s.absorbed (s.h ^^^ mixk v) n)) := by
  have tail : ∀ n (op : BitVec 3), op.toNat = 1 + n → 1 ≤ n → n ≤ 3 → s.phase = .absorb →
      s.len.toNat = s.off.toNat + n → nextWord s = issue op (s.msg.memRead s.off.toNat n) →
      (s.waits ∧ nextWord s = .noStep ∧ engineStep s = .next s) ∨
      (∃ n v, s.phase = .absorb ∧ 1 ≤ n ∧ n ≤ 3 ∧ s.len.toNat = s.off.toNat + n ∧
        s.msg.memRead s.off.toNat n = some v ∧ engineStep s = .next (s.absorbed (s.h ^^^ mixk v) n)) := by
    intro n op hop h1 h3 hp hl hw
    cases hm : s.msg.memRead s.off.toNat n with
    | none =>
      rw [hm] at hw
      have hb : s.bytesAsked = n := by simp only [State.bytesAsked]; omega
      exact .inl ⟨.inr (.inr ⟨hp, by omega, by rw [hb, hm]⟩), hw, by rw [engineStep, hw]; rfl⟩
    | some v =>
      rw [hm] at hw
      refine .inr ⟨n, v, hp, h1, h3, hl, hm, ?_⟩
      rw [engineStep, hw]
      exact execWord_tail hop h1 h3 (Memory.memRead_lt hm)
  cases hp : s.phase with
  | idle =>
    have hw : nextWord s = .noStep := by simp [nextWord, hp]
    exact .inl ⟨.inl hp, hw, by rw [engineStep, hw]⟩
  | done =>
    have hw : nextWord s = .noStep := by simp [nextWord, hp]
    exact .inl ⟨.inr (.inl hp), hw, by rw [engineStep, hw]⟩
  | init =>
    have hw : nextWord s = .word (opWord 0 s.seed) := by simp [nextWord, hp, operandInit, issue]
    refine .inr (.inr (.inl ⟨rfl, ?_⟩))
    rw [engineStep, hw]
    simp [execWord, decode, exec, execInit]
  | absorb =>
    have hn : nextWord s = absorbWord s := by simp [nextWord, hp]
    rcases absorbWord_cases s with ⟨h, e⟩ | ⟨h, e⟩ | ⟨h, e⟩ | ⟨h, e⟩ | ⟨h, e⟩ | ⟨h, e⟩
    · exact .inr (.inl ⟨rfl, h, by rw [engineStep, hn, e]⟩)
    · refine .inr (.inr (.inr (.inl ⟨rfl, BitVec.eq_of_toNat_eq h, ?_⟩)))
      rw [engineStep, hn, e]
      simp [execWord, decode, exec, execFin]
    · exact (tail 1 2 rfl (by omega) (by omega) hp h (hn.trans e)).imp_right
        fun ⟨n, v, ht⟩ => .inr (.inr (.inr (.inr ⟨n, v, rfl, ht.2⟩)))
    · exact (tail 2 3 rfl (by omega) (by omega) hp h (hn.trans e)).imp_right
        fun ⟨n, v, ht⟩ => .inr (.inr (.inr (.inr ⟨n, v, rfl, ht.2⟩)))
    · exact (tail 3 4 rfl (by omega) (by omega) hp h (hn.trans e)).imp_right
        fun ⟨n, v, ht⟩ => .inr (.inr (.inr (.inr ⟨n, v, rfl, ht.2⟩)))
    · cases hm : s.msg.memRead s.off.toNat 4 with
      | none =>
        rw [hm] at e
        have hb : s.bytesAsked = 4 := by simp only [State.bytesAsked]; omega
        exact .inl ⟨.inr (.inr ⟨hp, by omega, by rw [hb, hm]⟩), hn.trans e, by rw [engineStep, hn, e]; rfl⟩
      | some v =>
        rw [hm] at e
        refine .inr (.inr (.inr (.inr (.inl ⟨v, rfl, h, rfl, ?_⟩))))
        rw [engineStep, hn, e]
        simp [issue, execWord, decode, exec, execBlk]

end Sys2Proof.Machine
end

