-- ==== Sys2Proof/Laws/HostPort.lean ====
section
/-! SUPPORT. Everything a host access can do, said once. -/

namespace Sys2Proof.Machine

/-- A host read changes the record of reads, and outside DONE the count of free values, or is refused. -/
theorem hostRead_cases (i : RegNum) (s : State) :
    (∃ v n, hostRead i s = .next ((s.drawn n).recorded i v)) ∨ hostRead i s = .refused .noSuchRegister := by
  unfold hostRead readDigest
  cases hostReg i with
  | none => exact .inr rfl
  | some r =>
    cases r
    · exact .inl ⟨_, 0, rfl⟩
    · exact .inl ⟨_, 0, rfl⟩
    · exact .inl ⟨_, 0, rfl⟩
    · exact .inl ⟨_, 0, rfl⟩
    · cases s.phase.isDone
      · exact .inl ⟨_, 1, rfl⟩
      · exact .inl ⟨_, 0, rfl⟩

theorem hostReg_eq {i : RegNum} {r : HostReg} (h : hostReg i = some r) :
    i = match r with | .ctrl => 0 | .status => 1 | .seed => 2 | .len => 3 | .digest => 4 := by
  revert h
  revert i r
  intro i r
  cases r <;> decide +revert

/-- Numbers 0 to 4 name registers. -/
theorem hostReg_of_le {i : RegNum} (h : i.toNat ≤ 4) : ∃ r, hostReg i = some r := by
  unfold hostReg
  generalize i.toNat = n at *
  interval_cases n <;> simp

/-- Numbers 5 to 7 name none. -/
theorem hostReg_of_gt {i : RegNum} (h : 5 ≤ i.toNat) : hostReg i = none := by
  have h8 := i.isLt
  unfold hostReg
  generalize i.toNat = n at *
  interval_cases n <;> simp

/-- A host write changes nothing, or accepts a START, or sets an operand register while not BUSY, or is refused. -/
theorem hostWrite_cases (i : RegNum) (v : Word) (s : State) :
    hostWrite i v s = .next s ∨
    (i = 0 ∧ v.getLsbD 0 = true ∧ s.phase.busy = false ∧ hostWrite i v s = .next s.started) ∨
    (i = 2 ∧ s.phase.busy = false ∧ hostWrite i v s = .next (s.setSeed v)) ∨
    (i = 3 ∧ s.phase.busy = false ∧ hostWrite i v s = .next (s.setLen v)) ∨
    hostWrite i v s = .refused .noSuchRegister := by
  unfold hostWrite writeCtrl writeSeed writeLen
  cases hr : hostReg i with
  | none => simp
  | some r =>
    have hi := hostReg_eq hr
    cases r
    · by_cases h : (v.getLsbD 0 && !s.phase.busy) = true
      · simp only [Bool.and_eq_true, Bool.not_eq_true'] at h
        exact .inr (.inl ⟨hi, h.1, h.2, by simp [h.1, h.2]⟩)
      · exact .inl (by rw [if_neg h])
    · exact .inl rfl
    · cases hb : s.phase.busy
      · exact .inr (.inr (.inl ⟨hi, rfl, rfl⟩))
      · exact .inl rfl
    · cases hb : s.phase.busy
      · exact .inr (.inr (.inr (.inl ⟨hi, rfl, rfl⟩)))
      · exact .inl rfl
    · exact .inl rfl

/-- A placed byte, or the refusal of log 12. -/
theorem hostPlace_cases (off : Word) (b : Byte) (s : State) :
    ((s.phase.busy = true → s.len.toNat ≤ off.toNat) ∧ hostPlace off b s = .next (s.placed off b)) ∨
    (s.phase.busy = true ∧ off.toNat < s.len.toNat ∧
      hostPlace off b s = .refused .messageChangedWhileBusy) := by
  unfold hostPlace
  split
  · rename_i h
    simp only [Bool.and_eq_true, decide_eq_true_eq] at h
    exact .inr ⟨h.1, h.2, rfl⟩
  · rename_i h
    simp only [Bool.and_eq_true, decide_eq_true_eq, not_and, Nat.not_lt] at h
    exact .inl ⟨h, rfl⟩

/-- A poll records STATUS and, if the awaited bit is not there, puts the engine's move and itself first. -/
theorem poll_cases (arrived : Bool) (again : Move) (s : State) :
    (arrived = true ∧ poll arrived again s = s.recorded 1 s.status) ∨
    (arrived = false ∧
      poll arrived again s = (s.recorded 1 s.status).withMoves (.engine :: again :: s.moves)) := by
  cases arrived
  · exact .inr ⟨rfl, rfl⟩
  · exact .inl ⟨rfl, rfl⟩

theorem Phase.busy_iff (p : Phase) : p.busy = true ↔ p = .init ∨ p = .absorb := by
  cases p <;> decide

theorem Phase.isDone_iff (p : Phase) : p.isDone = true ↔ p = .done := by
  cases p <;> decide

end Sys2Proof.Machine
end

