-- ==== Sys2Proof/Laws/PerInstr.lean ====
section
/-! SUPPORT. Statements about every operation as syntax, one lemma per constructor. -/

namespace Sys2Proof.Laws.EncodeFields

/-- The word of an operation holds its code in bits 34:32 and its operand in bits 31:0 (30_encoding.md R45). -/
def Statement (i : Instr) : Prop := opField (encode i) = i.opcode ∧ immField (encode i) = i.operand

theorem init (imm : Word) : Statement (.init imm) := ⟨opField_opWord _ _, immField_opWord _ _⟩

theorem blk (imm : Word) : Statement (.blk imm) := ⟨opField_opWord _ _, immField_opWord _ _⟩

theorem tail1 (imm : Word) : Statement (.tail1 imm) := ⟨opField_opWord _ _, immField_opWord _ _⟩

theorem tail2 (imm : Word) : Statement (.tail2 imm) := ⟨opField_opWord _ _, immField_opWord _ _⟩

theorem tail3 (imm : Word) : Statement (.tail3 imm) := ⟨opField_opWord _ _, immField_opWord _ _⟩

theorem fin (imm : Word) : Statement (.fin imm) := ⟨opField_opWord _ _, immField_opWord _ _⟩

end Sys2Proof.Laws.EncodeFields
end

