-- ==== Sys2Proof/Laws/Run.lean ====
section
/-! SUPPORT. Runs of several steps, put together from single ones. -/

namespace Sys2Proof.Machine

@[simp] theorem runs_zero (s : State) : runs 0 s = .next s := rfl

theorem runs_succ_of_next {s t : State} (n : Nat) (h : step s = .next t) : runs (n + 1) s = runs n t := by
  have h' : Sys2Proof.core.step s = .next t := h
  simp only [runs, Host.Core.run, h']
  rfl

/-- A run that gives a next state begins with a step that does. -/
theorem runs_succ_eq_next {s u : State} {n : Nat} (h : runs (n + 1) s = .next u) :
    ∃ t, step s = .next t ∧ runs n t = .next u := by
  simp only [runs, Host.Core.run] at h
  cases hs : Sys2Proof.core.step s with
  | next t => exact ⟨t, hs, by rw [hs] at h; exact h⟩
  | fault e => rw [hs] at h; simp at h
  | refused e => rw [hs] at h; simp at h

theorem runs_add {s t : State} {n : Nat} (m : Nat) (h : runs n s = .next t) : runs (n + m) s = runs m t := by
  induction n generalizing s with
  | zero =>
    have : s = t := by simpa using h
    rw [this, Nat.zero_add]
  | succ n ih =>
    obtain ⟨u, hu, hr⟩ := runs_succ_eq_next h
    rw [Nat.add_right_comm, runs_succ_of_next _ hu, ih hr]

theorem step_nil {s : State} (h : s.moves = []) : step s = engineStep s := by
  simp only [step, turn, h]
  rfl

theorem step_cons {s : State} {m : Move} {rest : List Move} (h : s.moves = m :: rest) :
    step s = perform m (s.withMoves rest) := by
  simp only [step, turn, h]

end Sys2Proof.Machine
end

