-- ==== Sys2Proof/Laws/Step.lean ====
section
/-! SUPPORT. Everything a step that gives a next state can have done, said once: by the engine, and by the machine. -/

namespace Sys2Proof.Machine

/-- An engine step's next state: unchanged, or that of INIT, FIN, a block or the tail. -/
theorem engineStep_eq_next {s t : State} (h : engineStep s = .next t) :
    (s.waits ∧ t = s) ∨
    (s.phase = .init ∧ t = s.beginWalk s.seed) ∨
    (s.phase = .absorb ∧ s.off = s.len ∧ t = s.finished (fmix (s.h ^^^ s.len))) ∨
    (∃ v, s.phase = .absorb ∧ s.off.toNat + 4 ≤ s.len.toNat ∧ s.msg.memRead s.off.toNat 4 = some v ∧
      t = s.absorbed (round s.h v) 4) ∨
    (∃ n v, s.phase = .absorb ∧ 1 ≤ n ∧ n ≤ 3 ∧ s.len.toNat = s.off.toNat + n ∧
      s.msg.memRead s.off.toNat n = some v ∧ t = s.absorbed (s.h ^^^ mixk v) n) := by
  rcases engineStep_cases s with ⟨a, _, e⟩ | ⟨_, _, e⟩ | ⟨a, e⟩ | ⟨a, b, e⟩ | ⟨v, a, b, c, e⟩ |
    ⟨n, v, a, b, b', c, d, e⟩ <;> rw [e] at h <;> simp at h
  · exact .inl ⟨a, h.symm⟩
  · exact .inr (.inl ⟨a, h.symm⟩)
  · exact .inr (.inr (.inl ⟨a, b, h.symm⟩))
  · exact .inr (.inr (.inr (.inl ⟨v, a, b, c, h.symm⟩)))
  · exact .inr (.inr (.inr (.inr ⟨n, v, a, b, b', c, d, h.symm⟩)))

theorem State.withMoves_moves_self {s : State} {ms : List Move} (h : s.moves = ms) : s.withMoves ms = s := by
  rw [← h]
  rfl

/-- A step's next state, by the move that was taken. -/
theorem step_eq_next {s t : State} (h : step s = .next t) :
    (∃ ms, (s.moves = [] ∧ ms = [] ∨ s.moves = .engine :: ms) ∧ engineStep (s.withMoves ms) = .next t) ∨
    (∃ i v n ms, s.moves = .read i :: ms ∧ t = ((s.withMoves ms).drawn n).recorded i v) ∨
    (∃ i v ms, s.moves = .write i v :: ms ∧
      (t = s.withMoves ms ∨
        i = 0 ∧ v.getLsbD 0 = true ∧ s.phase.busy = false ∧ t = (s.withMoves ms).started ∨
        i = 2 ∧ s.phase.busy = false ∧ t = (s.withMoves ms).setSeed v ∨
        i = 3 ∧ s.phase.busy = false ∧ t = (s.withMoves ms).setLen v)) ∨
    (∃ o b ms, s.moves = .place o b :: ms ∧ (s.phase.busy = true → s.len.toNat ≤ o.toNat) ∧
      t = (s.withMoves ms).placed o b) ∨
    (∃ ms, s.moves = .reset :: ms ∧ t = (s.withMoves ms).resetEvent) ∨
    (∃ ms m ms', s.moves = m :: ms ∧ (m = .waitFree ∨ m = .waitDone) ∧
      t = ((s.withMoves ms).recorded 1 s.status).withMoves ms') := by
  cases hm : s.moves with
  | nil =>
    rw [step_nil hm] at h
    exact .inl ⟨[], .inl ⟨rfl, rfl⟩, by rwa [State.withMoves_moves_self hm]⟩
  | cons m rest =>
    rw [step_cons hm] at h
    cases m with
    | engine => exact .inl ⟨rest, .inr rfl, h⟩
    | read i =>
      simp only [perform] at h
      rcases hostRead_cases i (s.withMoves rest) with ⟨v, n, e⟩ | e <;> rw [e] at h <;> simp at h
      exact .inr (.inl ⟨i, v, n, rest, rfl, h.symm⟩)
    | write i v =>
      simp only [perform] at h
      refine .inr (.inr (.inl ⟨i, v, rest, rfl, ?_⟩))
      rcases hostWrite_cases i v (s.withMoves rest) with e | ⟨h1, h2, h3, e⟩ | ⟨h1, h2, e⟩ | ⟨h1, h2, e⟩ | e <;>
        rw [e] at h <;> simp at h <;> subst h
      · exact .inl rfl
      · exact .inr (.inl ⟨h1, h2, h3, rfl⟩)
      · exact .inr (.inr (.inl ⟨h1, h2, rfl⟩))
      · exact .inr (.inr (.inr ⟨h1, h2, rfl⟩))
    | place o b =>
      simp only [perform] at h
      rcases hostPlace_cases o b (s.withMoves rest) with ⟨hc, e⟩ | ⟨_, _, e⟩ <;> rw [e] at h <;> simp at h
      exact .inr (.inr (.inr (.inl ⟨o, b, rest, rfl, hc, h.symm⟩)))
    | reset =>
      simp only [perform, Host.Outcome.next.injEq] at h
      exact .inr (.inr (.inr (.inr (.inl ⟨rest, rfl, h.symm⟩))))
    | waitFree =>
      simp only [perform, Host.Outcome.next.injEq] at h
      refine .inr (.inr (.inr (.inr (.inr ?_))))
      rcases poll_cases (!(s.withMoves rest).phase.busy) .waitFree (s.withMoves rest) with ⟨_, e⟩ | ⟨_, e⟩
      · exact ⟨rest, _, rest, rfl, .inl rfl, h.symm.trans e⟩
      · exact ⟨rest, _, _, rfl, .inl rfl, h.symm.trans e⟩
    | waitDone =>
      simp only [perform, Host.Outcome.next.injEq] at h
      refine .inr (.inr (.inr (.inr (.inr ?_))))
      rcases poll_cases (s.withMoves rest).phase.isDone .waitDone (s.withMoves rest) with ⟨_, e⟩ | ⟨_, e⟩
      · exact ⟨rest, _, rest, rfl, .inr rfl, h.symm.trans e⟩
      · exact ⟨rest, _, _, rfl, .inr rfl, h.symm.trans e⟩

theorem engineStep_freeSource {s t : State} (h : engineStep s = .next t) : t.freeSource = s.freeSource := by
  rcases engineStep_eq_next h with ⟨_, rfl⟩ | ⟨_, rfl⟩ | ⟨_, _, rfl⟩ | ⟨_, _, _, _, rfl⟩ | ⟨_, _, _, _, _, _, _, rfl⟩ <;>
    simp

/-- No step changes whose free values an engine draws. -/
theorem step_freeSource {s t : State} (h : step s = .next t) : t.freeSource = s.freeSource := by
  rcases step_eq_next h with ⟨ms, _, h⟩ | ⟨i, v, n, ms, _, rfl⟩ | ⟨i, v, ms, _, rfl | ⟨_, _, _, rfl⟩ | ⟨_, _, rfl⟩ | ⟨_, _, rfl⟩⟩ |
    ⟨o, b, ms, _, _, rfl⟩ | ⟨ms, _, rfl⟩ | ⟨ms, m, ms', _, _, rfl⟩
  · simpa using engineStep_freeSource h
  all_goals simp

end Sys2Proof.Machine
end

