-- ==== Sys2Proof/Laws/Transaction.lean ====
section
/-! SUPPORT. How far a transaction has come: what H and OFF hold after each engine step, and that harmless host moves
leave that alone. -/

namespace Sys2Proof.Machine

/-- Four bytes read as one word. -/
theorem Memory.memRead_four (m : Memory) (a : Nat) (b : Nat → Byte)
    (h : ∀ i, i < 4 → m.readByte (a + i) = some (b i)) :
    m.memRead a 4 = some ((b 0).setWidth 32 ||| ((b 1).setWidth 32 <<< 8) ||| ((b 2).setWidth 32 <<< 16) |||
        ((b 3).setWidth 32 <<< 24)) := by
  have h0 := h 0 (by omega); have h1 := h 1 (by omega); have h2 := h 2 (by omega); have h3 := h 3 (by omega)
  simp only [Nat.add_zero] at h0
  simp [Memory.memRead, h0, h1, show a + 1 + 1 = a + 2 by omega, show a + 2 + 1 = a + 3 by omega, h2, h3]
  simp [BitVec.shiftLeft_or_distrib, ← BitVec.shiftLeft_add, BitVec.or_assoc]

/-- The tail's three XORs set disjoint bytes of a zero word (45_sequencer.md R104). -/
theorem tail_three_bytes (a b c : Byte) :
    (0 ^^^ ((c.setWidth 32 : Word) <<< 16)) ^^^ ((b.setWidth 32 : Word) <<< 8) ^^^ (a.setWidth 32 : Word) =
      a.setWidth 32 ||| (b.setWidth 32 ||| c.setWidth 32 <<< 8) <<< 8 := by
  apply BitVec.eq_of_getLsbD_eq
  intro i hi
  simp only [BitVec.getLsbD_xor, BitVec.getLsbD_or, BitVec.getLsbD_shiftLeft, BitVec.getLsbD_setWidth]
  by_cases h1 : i < 8
  · have : i < 16 := by omega
    simp [h1, this]
  · by_cases h2 : i < 16
    · have e1 : a.getLsbD i = false := BitVec.getLsbD_of_ge _ _ (by omega)
      have : i - 8 < 8 := by omega
      simp [h1, h2, e1, this]
    · have e1 : a.getLsbD i = false := BitVec.getLsbD_of_ge _ _ (by omega)
      have e2 : b.getLsbD (i-8) = false := BitVec.getLsbD_of_ge _ _ (by omega)
      have : ¬ i - 8 < 8 := by omega
      have h3 : i - 8 - 8 = i - 16 := by omega
      simp [h1, h2, e1, e2, this, h3, hi]
      omega

theorem tail_two_bytes (a b : Byte) :
    0 ^^^ ((b.setWidth 32 : Word) <<< 8) ^^^ (a.setWidth 32 : Word) =
      a.setWidth 32 ||| (b.setWidth 32) <<< 8 := by
  have := tail_three_bytes a b 0; simpa using this

/-- The accumulator after the first `i` blocks. -/
def hashPrefix (data : List Byte) (seed : Word) (i : Nat) : Word :=
  (List.range i).foldl (fun h i => round h (hashBlock data i)) seed

theorem hashPrefix_succ (data seed i) :
    hashPrefix data seed (i+1) = round (hashPrefix data seed i) (hashBlock data i) := by
  simp [hashPrefix, List.range_succ]

/-- Where a transaction stands after `k` engine steps from INIT: H and OFF are those of the function's first steps. -/
def Progress (data : List Byte) (seed : Word) (k : Nat) (t : State) : Prop :=
  t.seed = seed ∧ t.holds data ∧
  ((k = 0 ∧ t.phase = .init) ∨
   (1 ≤ k ∧ k ≤ 1 + data.length/4 ∧ t.phase = .absorb ∧ t.off.toNat = 4*(k-1) ∧ t.h = hashPrefix data seed (k-1)) ∨
   (data.length % 4 ≠ 0 ∧ k = 2 + data.length/4 ∧ t.phase = .absorb ∧ t.off.toNat = data.length ∧
     t.h = hashTail data (hashBlocks data seed)) ∨
   (k = stepCount data.length ∧ t.phase = .done ∧ t.off.toNat = data.length ∧ t.h = hash32 data seed))

theorem State.holds_byte {t : State} {data} (h : t.holds data) {j} (hj : j < data.length) :
    t.msg.readByte j = some (data.getD j 0) := by
  rw [h.2 j hj]; simp [hj]

/-- The tail word of the function is what the engine reads. -/
theorem State.holds_tail {t : State} {data : List Byte} (h : t.holds data) (hn : data.length % 4 ≠ 0) :
   t.msg.memRead (4*(data.length/4)) (data.length % 4) = some (hashTailWord data) := by
  have hlt := Nat.mod_lt data.length (show 4 > 0 by omega)
  have hdm := Nat.div_add_mod data.length 4
  have : data.length % 4 = 1 ∨ data.length % 4 = 2 ∨ data.length % 4 = 3 := by omega
  rcases this with e|e|e
  · rw [e]
    simp [Memory.memRead, State.holds_byte h (show 4*(data.length/4) < data.length by omega), hashTailWord, e, dataByte]
  · rw [e]
    simp [Memory.memRead, State.holds_byte h (show 4*(data.length/4) < data.length by omega),
      State.holds_byte h (show 4*(data.length/4)+1 < data.length by omega), hashTailWord,
      e, dataByte, shl32]
    rw [← tail_two_bytes]; simp
  · rw [e]
    simp [Memory.memRead, State.holds_byte h (show 4*(data.length/4) < data.length by omega),
      State.holds_byte h (show 4*(data.length/4)+1 < data.length by omega),
      State.holds_byte h (show 4*(data.length/4)+1+1 < data.length by omega), hashTailWord,
      e, dataByte, shl32]
    rw [← tail_three_bytes]; simp

/-- The block word of the function is what the engine reads. -/
theorem State.holds_block {t : State} {data : List Byte} (h : t.holds data) {i} (hi : i < data.length / 4) :
   t.msg.memRead (4*i) 4 = some (hashBlock data i) := by
  rw [Memory.memRead_four _ _ (fun j => data.getD (4*i+j) 0)]
  · simp [hashBlock, dataByte, shl32]
  · intro j hj; exact State.holds_byte h (by omega)

/-- An engine step takes a transaction one step on, and touches nothing of the host's. -/
theorem progress_engine {data seed k} {t : State} (hk : k < stepCount data.length) (h : Progress data seed k t) :
   ∃ t', engineStep t = .next t' ∧ Progress data seed (k+1) t' ∧ t'.moves = t.moves ∧
     t'.reads = t.reads ∧ t'.freeCount = t.freeCount ∧ t'.msg = t.msg ∧ t'.len = t.len := by
  obtain ⟨hs, hh, h⟩ := h
  have hl := hh.1
  have hlt := Nat.mod_lt data.length (show 4 > 0 by omega)
  have hdm := Nat.div_add_mod data.length 4
  have hst : stepCount data.length = 2 + data.length/4 + if data.length % 4 = 0 then 0 else 1 := rfl
  have := t.len.isLt
  rcases h with ⟨rfl, hp⟩|⟨h1, h2, hp, ho, e⟩|⟨h1, h2, hp, ho, e⟩|⟨h1, _⟩
  · rcases engineStep_cases t with ⟨a,_, e⟩|⟨a, b, e⟩|⟨a, e⟩|⟨a, b, e⟩|⟨v, a, b, c, e⟩|⟨n, v, a, b, b', c, d, e⟩ <;>
      simp [State.waits, hp] at a
    refine ⟨_, e, ⟨by simpa, hh, ?_⟩, rfl, rfl, rfl, rfl, rfl⟩
    right; left; simp [hashPrefix, hs]
  · have hfin : data.length / 4 = k - 1 → hashPrefix data seed (k-1) = hashBlocks data seed :=
      fun h => by simp [hashBlocks, hashPrefix, h]
    rcases engineStep_cases t with ⟨a,_, e'⟩|⟨a, b, e'⟩|⟨a, e'⟩|⟨a, b, e'⟩|⟨v, a, b, c, e'⟩|⟨n, v, a, b, b', c, d, e'⟩
    · exfalso
      rcases a with a|a|⟨_, a, b⟩
      · simp [hp] at a
      · simp [hp] at a
      · have := (Memory.memRead_isSome (m := t.msg) (a := t.off.toNat) (n := t.bytesAsked)).2
          fun j c d => by
            have hb : t.bytesAsked = min 4 (t.len.toNat - t.off.toNat) := rfl
            rw [State.holds_byte hh (by omega)]
            rfl
        rw [b] at this; simp at this
    · omega
    · simp [hp] at a
    · have hq : t.off.toNat = t.len.toNat := by rw [b]
      have h0 : data.length % 4 = 0 := by omega
      refine ⟨_, e', ⟨by simpa, by simpa [State.holds] using hh, ?_⟩, by simp, by simp, by simp, by simp, by simp⟩
      right; right; right
      simp [hst, h0]
      refine ⟨by omega, by omega, ?_⟩
      rw [hash32, hashTail, if_neg (by omega), e, hfin (by omega)]
      congr 2
      apply BitVec.eq_of_toNat_eq; simp; omega
    · have hi : k - 1 < data.length / 4 := by omega
      have := State.holds_block hh hi
      rw [ho, this] at c; simp at c; subst c
      refine ⟨_, e', ⟨by simpa, by simpa [State.holds] using hh, ?_⟩, by simp, by simp, by simp, by simp, by simp⟩
      right; left
      refine ⟨by omega, by omega, by simpa using hp, ?_, ?_⟩
      · simp; omega
      · simp [e]; rw [show k = (k-1)+1 by omega, hashPrefix_succ]; simp
    · have h0 : data.length % 4 = n := by omega
      have hq : data.length / 4 = k - 1 := by omega
      have := State.holds_tail hh (by omega)
      rw [hq, h0, ← ho, d] at this; simp at this; subst this
      refine ⟨_, e', ⟨by simpa, by simpa [State.holds] using hh, ?_⟩, by simp, by simp, by simp, by simp, by simp⟩
      right; right; left
      refine ⟨by omega, by omega, by simpa using hp, by simp; omega, ?_⟩
      simp [e, hashTail, h0]; rw [if_pos (by omega), hfin hq]
  · rcases engineStep_cases t with ⟨a,_, e'⟩|⟨a, b, e'⟩|⟨a, e'⟩|⟨a, b, e'⟩|⟨v, a, b, c, e'⟩|⟨n, v, a, b, b', c, d, e'⟩
    · exfalso
      rcases a with a|a|⟨_, a, b⟩
      · simp [hp] at a
      · simp [hp] at a
      · omega
    · omega
    · simp [hp] at a
    · refine ⟨_, e', ⟨by simpa, by simpa [State.holds] using hh, ?_⟩, by simp, by simp, by simp, by simp, by simp⟩
      right; right; right
      simp [hst, h1]
      refine ⟨by omega, by omega, ?_⟩
      rw [hash32, e]
      congr 2
      apply BitVec.eq_of_toNat_eq; simp; omega
    · omega
    · omega
  · omega

/-- A harmless host move leaves a transaction where it stands. -/
theorem progress_host {data seed k m} {t : State} (hk : k < stepCount data.length) (h : Progress data seed k t)
    (hm : m.harmless data.length) :
   ∃ t', perform m t = .next t' ∧ Progress data seed k t' ∧ t'.moves = t.moves ∧ t'.len = t.len ∧
     (∀ j, j < data.length → t'.msg.readByte j = t.msg.readByte j) := by
  have hb : t.phase.busy = true := by
    obtain ⟨_, _, h⟩ := h
    rcases h with ⟨rfl, hp⟩|⟨h1, h2, hp, ho, e⟩|⟨h1, h2, hp, ho, e⟩|⟨h1, _⟩
    · simp [hp, Phase.busy]
    · simp [hp, Phase.busy]
    · simp [hp, Phase.busy]
    · omega
  cases m <;> simp [Move.harmless] at hm
  · rename_i i
    rcases hostRead_cases i t with ⟨v, n, e⟩|e
    · exact ⟨_, e, h, rfl, rfl, fun _ _ => rfl⟩
    · obtain ⟨r, hr⟩ := hostReg_of_le hm; simp [hostRead, hr] at e; cases r <;> simp at e
  · rename_i i v
    rcases hostWrite_cases i v t with e|⟨h1,h2,h3,e⟩|⟨h1,h2,e⟩|⟨h1,h2,e⟩|e
    · exact ⟨_, e, h, rfl, rfl, fun _ _ => rfl⟩
    · simp [hb] at h3
    · simp [hb] at h2
    · simp [hb] at h2
    · obtain ⟨r, hr⟩ := hostReg_of_le hm; simp [hostWrite, hr] at e; cases r <;> simp at e
  · rename_i o b
    have hl := h.2.1.1
    rcases hostPlace_cases o b t with ⟨hc, e⟩|⟨_,h1,e⟩
    · have hx : ∀ j, j < data.length → (t.msg.writeByte o.toNat b).readByte j = t.msg.readByte j :=
        fun j hj => Memory.readByte_writeByte_other _ _ (by omega)
      exact ⟨_, e, ⟨h.1, ⟨h.2.1.1, fun j hj => by rw [← h.2.1.2 j hj]; exact hx j hj⟩, h.2.2⟩, rfl, rfl, hx⟩
    · omega

/-- After the step count the transaction is done. -/
theorem progress_done {data seed t} (b : Progress data seed (stepCount data.length) t) :
    t.phase = .done ∧ t.h = hash32 data seed ∧ t.off = t.len := by
  have hst : stepCount data.length = 2 + data.length/4 + if data.length % 4 = 0 then 0 else 1 := rfl
  obtain ⟨x, y, z⟩ := b
  rcases z with ⟨z, _⟩|⟨_, z, _⟩|⟨h1, z, _⟩|⟨_, z1, z2, z3⟩
  · omega
  · omega
  · simp [h1] at hst; omega
  · exact ⟨z1, z3, by apply BitVec.eq_of_toNat_eq; rw [z2, y.1]⟩

/-- Before it the engine is BUSY. -/
theorem progress_busy {data seed t k} (hk : k < stepCount data.length) (b : Progress data seed k t) :
    t.phase.busy = true := by
    obtain ⟨_, _, h⟩ := b
    rcases h with ⟨rfl, hp⟩|⟨h1, h2, hp, ho, e⟩|⟨h1, h2, hp, ho, e⟩|⟨h1, _⟩
    · simp [hp, Phase.busy]
    · simp [hp, Phase.busy]
    · simp [hp, Phase.busy]
    · omega

end Sys2Proof.Machine
end

