-- ==== Sys2Proof/Tests/Slice0.lean ====
section
/-! SUPPORT. Tests: the smoke tests of WellFormed, words written out from the encoding, the spec's worked values
(95_test_vectors.md), and for each statement with hypotheses a witness that meets them. -/

namespace Sys2Proof.Tests

open Sys2Proof.Machine

/-! ## WellFormed: an ill-formed term for each check (30_encoding.md R48) -/

theorem test_wf_tail1_refuses_bit8 : Instr.wf (.tail1 0x100) = false := by decide
theorem test_wf_tail2_refuses_bit16 : Instr.wf (.tail2 0x10000) = false := by decide
theorem test_wf_tail3_refuses_bit24 : Instr.wf (.tail3 0x1000000) = false := by decide
theorem test_wf_tail3_admits_its_largest : Instr.wf (.tail3 0xFFFFFF) = true := by decide

/-! ## Decoding: words written out bit by bit (30_encoding.md R45, R46; values of 95_test_vectors.md 2.3, 2.5) -/

theorem test_decode_init : decode 0b00000000000000000000000000000101010#35 = .ok (.init 0x0000002A) := by decide
theorem test_decode_blk : decode 0b00101110100011100110110010101110100#35 = .ok (.blk 0x74736574) := by decide
theorem test_decode_tail1 : decode 0b01000000000000000000000000000100001#35 = .ok (.tail1 0x21) := by decide
theorem test_decode_tail2 : decode 0b01100000000000000000110001001100001#35 = .ok (.tail2 0x6261) := by decide
theorem test_decode_tail3 : decode 0b10000000000011000110110001001100001#35 = .ok (.tail3 0x636261) := by decide
theorem test_decode_fin : decode 0b10100000000000000000000000000001101#35 = .ok (.fin 13) := by decide
theorem test_decode_tail1_high : decode 0x200000100#35 = .invalid .tailHighBits := by decide
theorem test_decode_tail2_high : decode 0x300010000#35 = .invalid .tailHighBits := by decide
theorem test_decode_tail3_high : decode 0x401000000#35 = .invalid .tailHighBits := by decide
theorem test_decode_op6 : decode 0x600000000#35 = .invalid .reservedOp := by decide
theorem test_decode_op7 : decode 0x7FFFFFFFF#35 = .invalid .reservedOp := by decide
theorem test_encode_blk : encode (.blk 0x74736574) = 0x174736574#35 := by decide
theorem test_table_word : decodeTableWord 40 0x50000000D = some (.fin 13) := by decide
theorem test_table_word_too_wide : decodeTableWord 40 0x800000000 = none := by decide
theorem test_fetch_runs_blk :
    step (State.reset.withFetchWord 40 0x174736574) =
      exec (.blk 0x74736574) (State.reset.withFetchWord 40 0x174736574) := by rfl

/-! ## Arithmetic (95_test_vectors.md 2.1, 2.2) -/

theorem test_add32_wraps : add32 0x19AB949C 0xE6546B64 = 0 := by decide
theorem test_mul32_truncates : mul32 0xFFFFFFFF 0xCC9E2D51 = 0x3361D2AF := by decide
theorem test_shr32_is_logical : shr32 0x80000000 13 = 0x00040000 := by decide
theorem test_rotl32_15 : rotl32 0x12345678 15 = 0x2B3C091A := by decide
theorem test_rotl32_13 : rotl32 0xDEADBEEF 13 = 0xB7DDFBD5 := by decide
theorem test_mixk : mixk 0x87654321 = 0x5082EDEE := by decide
theorem test_round : Sys2Proof.Machine.round 0xCB5BEC36 0x77202C6F = 0x22B5BD6F := by decide
theorem test_fmix : fmix 0x12345778 = 0x787B7414 := by decide

/-! ## The operations, one step each (95_test_vectors.md 2.3) -/

/-- A state in ABSORB with H, OFF, LEN and message bytes at rising offsets from `a`. -/
def absorbing (h off len : Word) (a : Nat) (bs : List Byte) : State :=
  { State.reset with phase := .absorb, h := h, off := off, len := len, msg := bs.mapIdx fun i b => (a + i, b) }

/-- The next state of an outcome. -/
def after : Host.Outcome State Fault Refusal → Option State
  | .next s => some s
  | .fault _ => none
  | .refused _ => none

/-- H, OFF and PHASE of an outcome's next state. -/
def view (o : Host.Outcome State Fault Refusal) : Option (Word × Word × Phase) :=
  (after o).map fun s => (s.h, s.off, s.phase)

theorem test_init : view (exec (.init 0xFFFFFFFF) { State.reset with h := 0xBA6BD213, off := 4, phase := .init }) =
    some (0xFFFFFFFF, 0, .absorb) := by decide
theorem test_init_issued : view (step { State.reset with seed := 0x2A, phase := .init }) =
    some (0x2A, 0, .absorb) := by decide
theorem test_blk : view (step (absorbing 0 0 4 0 [0x74, 0x65, 0x73, 0x74])) =
    some (0x7985975B, 4, .absorb) := by decide
theorem test_blk_zero_is_no_nop : view (exec (.blk 0) (absorbing 0 0 4 0 [])) =
    some (0xE6546B64, 4, .absorb) := by decide
theorem test_tail1 : view (step (absorbing 0xA1590249 12 13 12 [0x21])) =
    some (0x0D07536A, 13, .absorb) := by decide
theorem test_tail1_high_byte : view (step (absorbing 0 0 1 0 [0xFF])) = some (0x301CDD45, 1, .absorb) := by decide
theorem test_tail2 : view (step (absorbing 0x86A7049E 4 6 4 [0x65, 0x66])) =
    some (0x9EB0FC7F, 6, .absorb) := by decide
theorem test_tail2_zero : view (exec (.tail2 0) (absorbing 0 0 2 0 [])) = some (0, 2, .absorb) := by decide
theorem test_tail3 : view (step (absorbing 0x2A 0 3 0 [0x61, 0x62, 0x63, 0x99])) =
    some (0xA7349D9D, 3, .absorb) := by decide
theorem test_tail3_last : view (exec (.tail3 0x00F9FAFB) (absorbing 0x17C55B1F 4 7 4 [])) =
    some (0x466EEAAF, 7, .absorb) := by decide
theorem test_fin : view (step (absorbing 0x7985975B 4 4 0 [])) = some (0xBA6BD213, 4, .done) := by decide
theorem test_fin_cancels : view (exec (.fin 0xFFFFFFFF) (absorbing 0xFFFFFFFF 0 0 0 [])) =
    some (0, 0, .done) := by decide
theorem test_unreadable_byte_is_no_step : view (step (absorbing 7 0 4 0 [1, 2, 3])) =
    some (7, 0, .absorb) := by decide

/-! ## The function (95_test_vectors.md 1.1, 2.4, 2.6, C1) -/

theorem test_hash_test : hash32 [0x74, 0x65, 0x73, 0x74] 0 = 0xBA6BD213 := by decide
theorem test_hash_hello : hash32 [0x48, 0x65, 0x6C, 0x6C, 0x6F, 0x2C, 0x20, 0x77, 0x6F, 0x72, 0x6C, 0x64, 0x21] 0 =
    0xC0363E43 := by decide
theorem test_hash_abc_42 : hash32 [0x61, 0x62, 0x63] 42 = 0x4E4F1E68 := by decide
theorem test_hash_high_bytes : hash32 [0xFF, 0xFE, 0xFD, 0xFC, 0xFB, 0xFA, 0xF9] 0x9747B28C = 0x411D3F28 := by decide
/-- 90_conflicts.md C1: the value the spec keeps for "The quick brown fox jumps over the lazy dog". -/
theorem test_hash_fox : hash32 ("The quick brown fox jumps over the lazy dog".toList.map
    fun c => BitVec.ofNat 8 c.toNat) 0 = 0x2E4FF723 := by decide
theorem test_stream : stream [0x61, 0x62, 0x63, 0x64, 0x65] 7 =
    [.init 7, .blk 0x64636261, .tail1 0x65, .fin 5] := by decide

/-! ## The host's side, one step each (95_test_vectors.md 2.7) -/

/-- One move performed on a state. -/
def doing (m : Move) (s : State) : Host.Outcome State Fault Refusal := step { s with moves := [m] }

theorem test_rd_status_busy : (after (doing (.read 1) (absorbing 0 0 8 0 []))).map State.reads =
    some [(1, 1)] := by decide
theorem test_rd_digest_done :
    (after (doing (.read 4) { State.reset with phase := .done, h := 0xBA6BD213 })).map State.reads =
      some [(4, 0xBA6BD213)] := by decide
theorem test_wr_seed_busy_dropped : (after (doing (.write 2 9) { absorbing 0 0 8 0 [] with seed := 5 })).map State.seed =
    some 5 := by decide
theorem test_wr_len_idle : (after (doing (.write 3 3) State.reset)).map State.len = some 3 := by decide
theorem test_start_bit0 : (after (doing (.write 0 0xFFFFFFFF) State.reset)).map State.phase = some .init := by decide
theorem test_no_start_without_bit0 : (after (doing (.write 0 0xFFFFFFFE) State.reset)).map State.phase =
    some .idle := by decide
theorem test_reset_clears_seed : (after (doing .reset { absorbing 0 0 8 0 [] with seed := 5 })).map
    (fun s => (s.phase, s.seed, s.len)) = some (.idle, 0, 0) := by decide
theorem test_place_then_read : (after (doing (.place 3 0x55) State.reset)).map (fun s => s.msg.readByte 3) =
    some (some 0x55) := by decide

/-! ## The notation (30_encoding.md R53, R54) -/

theorem test_assemble_blk : assemble "BLK 0x74736574 ; a block".toList = some [0x174736574] := by decide
theorem test_assemble_refuses_wide : assemble "TAIL1 256".toList = none := by decide
theorem test_assemble_hash32 : assembleLine "HASH32 0, \"test\"".toList =
    some [.init 0, .blk 0x74736574, .fin 4] := by decide
theorem test_host_program : hostProgram "WR LEN, 0x00000004\nWR CTRL, 1\npoll\nRD DIGEST".toList =
    some [.write 3 4, .write 0 1, .waitDone, .read 4] := by decide

theorem test_printed_operation : assembleLine (printOp (.tail3 0xFFFFFF)) = some [.tail3 0xFFFFFF] := by decide
theorem test_printed_hash32 : assembleLine (printHash [0x61, 0xFF] 0xDEADBEEF) =
    some [.init 0xDEADBEEF, .tail2 0xFF61, .fin 2] := by decide

/-! ## Witnesses: for each statement with hypotheses, values that meet them, clause by clause at the edges -/

/-- A state with the message "abc" and seed 42, in the given phase (95_test_vectors.md 2.3). -/
def abc (p : Phase) : State :=
  { State.reset with phase := p, off := 0, len := 3, seed := 42, msg := [(0, 0x61), (1, 0x62), (2, 0x63)] }

theorem abc_holds (p : Phase) : (abc p).holds [0x61, 0x62, 0x63] := ⟨rfl, by cases p <;> decide⟩

theorem witness_EncodeAndDecodeAreInverse :
    (0xFF#32).toNat < 2 ^ 8 ∧ (0xFFFF#32).toNat < 2 ^ 16 ∧ (0xFFFFFF#32).toNat < 2 ^ 24 ∧
    Instr.wf (.tail1 0xFF) = true ∧ decode 0x2000000FF#35 = .ok (.tail1 0xFF) := by decide

theorem witness_DecoderFollowsItsListing :
    (2 = (0x2000000FF#35).toNat / 2 ^ 32 ∧ (0xFF#32).toNat = (0x2000000FF#35).toNat % 2 ^ 32 ∧
      (0xFF#32).toNat / 2 ^ 8 = 0) ∧
    (3 = (0x30000FFFF#35).toNat / 2 ^ 32 ∧ (0xFFFF#32).toNat = (0x30000FFFF#35).toNat % 2 ^ 32 ∧
      (0xFFFF#32).toNat / 2 ^ 16 = 0) ∧
    (4 = (0x401000000#35).toNat / 2 ^ 32 ∧ (0x1000000#32).toNat = (0x401000000#35).toNat % 2 ^ 32 ∧
      (0x1000000#32).toNat / 2 ^ 24 ≠ 0) ∧
    6 = (0x600000000#35).toNat / 2 ^ 32 ∧ decode 0x600000000#35 = .invalid .reservedOp := by decide

theorem witness_SequencerIssuesOperationWordsOnly :
    ((0x200000100#35).toNat / 2 ^ 32 = 1 + 1 ∧ 2 ^ (8 * 1) ≤ (0x200000100#35).toNat % 2 ^ 32) ∧
    ((0x4FFFFFFFF#35).toNat / 2 ^ 32 = 1 + 3 ∧ 2 ^ (8 * 3) ≤ (0x4FFFFFFFF#35).toNat % 2 ^ 32) ∧
    6 ≤ (0x600000000#35).toNat / 2 ^ 32 ∧ nextWord (abc .absorb) = .word 0x400636261 := by decide

theorem witness_OpcodeTableAgreesWithDecoder :
    (⟨"TAIL1", 0x7FFFFFF00, 0x200000000⟩ : OpRow) ∈ opcodeTable := by decide

theorem witness_WrittenOperationsAssemble :
    Instr.wf (.tail1 0xFF) = true ∧ operationOf (mnemonicChars (.tail1 0xFF)) "255".toList = some (.tail1 0xFF) ∧
    number "255".toList = some (Instr.operand (.tail1 0xFF)).toNat ∧
    '"' ∉ "FIN 4 ".toList ∧ ';' ∉ "FIN 4 ".toList := by decide

theorem witness_Hash32LineExpandsToTheStream :
    ([] : List Byte).length < 2 ^ 32 ∧ 2 ^ 32 ≤ (List.replicate (2 ^ 32) (0 : Byte)).length := by
  simp only [List.length_replicate, List.length_nil]
  omega

theorem witness_RotateMovesEveryBit : 1 ≤ 1 ∧ 1 ≤ 31 ∧ 31 ≤ 31 ∧ 0 < 32 ∧ 31 < 32 := by decide

theorem witness_FmixIsABijection : ∃ a b c d : Word,
    a = 0x12345778 ^^^ (0x12345778 >>> 16) ∧ b = a * 0x85EBCA6B ∧ c = b ^^^ (b >>> 13) ∧ d = c * 0xC2B2AE35 :=
  ⟨_, _, _, _, rfl, rfl, rfl, rfl⟩

theorem witness_MemReadIsTheLittleEndianSum :
    let m := (absorbing 0 0 4 0 [0x74, 0x65, 0x73, 0x74]).msg;
    let b : Nat → Byte := fun i => [0x74, 0x65, 0x73, 0x74].getD i 0;
    (∀ i, i < 4 → m.readByte (0 + i) = some (b i)) ∧ (∀ i, i < 1 → m.readByte (0 + i) = some (b i)) := by decide

theorem witness_UnreadableByteLeavesTheEngineStuck :
    let s := absorbing 7 0 4 0 [1, 2, 3];
    s.phase = .absorb ∧ s.off.toNat ≤ s.len.toNat ∧ s.moves = [] ∧ s.off.toNat ≤ 3 ∧
      3 < s.off.toNat + s.bytesAsked ∧ s.msg.readByte 3 = none := by decide

theorem witness_EngineNeverWritesMemory :
    (after (engineStep (abc .absorb))).isSome = true ∧
    ∃ t, step { State.reset with moves := [.place 3 9] } = .next t ∧
      t.msg.readByte 3 ≠ State.reset.msg.readByte 3 :=
  ⟨by decide, _, rfl, by decide⟩

theorem witness_PlacedByteIsReadBackOrRefused :
    ((abc .absorb).phase.busy = true ∧ (2#32).toNat < (abc .absorb).len.toNat) ∧
    (abc .absorb).len.toNat ≤ (3#32).toNat ∧ (abc .done).phase.busy = false ∧
    { abc .absorb with moves := [Move.place 3 9] }.moves = .place 3 9 :: [] := by decide

theorem witness_BytesBeyondLenHaveNoInfluence :
    (abc .absorb).Inv ∧
    (∀ j, j < (abc .absorb).len.toNat →
      Memory.readByte ((abc .absorb).msg.writeByte 3 9) j = (abc .absorb).msg.readByte j) ∧
    (after (engineStep (abc .absorb))).isSome = true := by decide

theorem witness_InitLoadsTheSeed : (abc .init).phase = .init ∧ 42 = (abc .init).seed := by decide

theorem witness_BlkMixesOneBlock :
    (let s := absorbing 0 0 4 0 [0x74, 0x65, 0x73, 0x74];
      s.phase = .absorb ∧ s.off.toNat + 4 ≤ s.len.toNat ∧ s.msg.memRead s.off.toNat 4 = some 0x74736574) ∧
    ∃ a b c d e f : Word,
      a = 0x74736574 * 0xCC9E2D51 ∧ b = (a <<< 15) ||| (a >>> 17) ∧ c = b * 0x1B873593 ∧ d = 0 ^^^ c ∧
      e = (d <<< 13) ||| (d >>> 19) ∧ f = e * 5 + 0xE6546B64 :=
  ⟨by decide, _, _, _, _, _, _, rfl, rfl, rfl, rfl, rfl, rfl⟩

theorem witness_TailMixesTheLastBytes :
    (let s := absorbing 0 12 13 12 [0xFF];
      (0xFF#32).toNat < 2 ^ 8 ∧ s.len.toNat = s.off.toNat + 1 ∧ s.msg.readByte s.off.toNat = some 0xFF) ∧
    (let s := absorbing 0 0 2 0 [0xFF, 0xFF];
      (0xFFFF#32).toNat < 2 ^ 16 ∧ s.len.toNat = s.off.toNat + 2 ∧ s.msg.memRead s.off.toNat 2 = some 0xFFFF) ∧
    (let s := absorbing 0 4 7 4 [0xFF, 0xFF, 0xFF];
      (0xFFFFFF#32).toNat < 2 ^ 24 ∧ s.len.toNat = s.off.toNat + 3 ∧
        s.msg.memRead s.off.toNat 3 = some 0xFFFFFF) := by decide

theorem witness_TailOperandAboveItsBytesIsRefused :
    2 ^ 8 ≤ (0x100#32).toNat ∧ 2 ^ 16 ≤ (0x10000#32).toNat ∧ 2 ^ 24 ≤ (0x1000000#32).toNat := by decide

theorem witness_FinFinishesTheHash : (absorbing 7 4 4 0 []).phase = .absorb ∧
    (absorbing 7 4 4 0 []).off = (absorbing 7 4 4 0 []).len ∧
    ∃ x a b c d e : Word, x = 7 ^^^ 4 ∧ a = x ^^^ (x >>> 16) ∧ b = a * 0x85EBCA6B ∧ c = b ^^^ (b >>> 13) ∧
      d = c * 0xC2B2AE35 ∧ e = d ^^^ (d >>> 16) :=
  ⟨by decide, by decide, _, _, _, _, _, _, rfl, rfl, rfl, rfl, rfl, rfl⟩

theorem witness_EveryOperationCompletes :
    Instr.wf (.init 0xFFFFFFFF) = true ∧ Instr.wf (.blk 0) = true ∧ Instr.wf (.tail1 0xFF) = true ∧
    Instr.wf (.tail2 0xFFFF) = true ∧ Instr.wf (.tail3 0xFFFFFF) = true ∧ Instr.wf (.fin 0) = true := by decide

theorem witness_OperationsLeaveTheRestUnchanged :
    (after (exec (.fin 3) (abc .absorb))).isSome = true ∧ (after (exec (.tail3 0x636261) (abc .absorb))).isSome = true ∧
    Instr.mnemonic (.fin 3) = "FIN" ∧ Instr.mnemonic (.tail3 0) ≠ "INIT" ∧ Instr.mnemonic (.tail3 0) ≠ "FIN" := by
  decide

theorem witness_SequencerSelectsTheWord :
    (abc .init).phase = .init ∧
    (let s := absorbing 0 0 4 0 [1, 2, 3, 4];
      4 ≤ (s.len - s.off).toNat ∧ s.msg.memRead s.off.toNat 4 = some 0x04030201) ∧
    (let s := absorbing 0 4 7 4 [5, 6, 7];
      3 = (s.len - s.off).toNat ∧ s.msg.memRead s.off.toNat 3 = some 0x070605) ∧
    (let s := absorbing 0 4 6 4 [5, 6];
      2 = (s.len - s.off).toNat ∧ s.msg.memRead s.off.toNat 2 = some 0x0605) ∧
    (let s := absorbing 0 4 5 4 [5];
      1 = (s.len - s.off).toNat ∧ s.msg.memRead s.off.toNat 1 = some 5) ∧
    (let s := absorbing 0 4 4 0 [];
      s.phase = .absorb ∧ s.off.toNat ≤ s.len.toNat ∧ 0 = (s.len - s.off).toNat) := by decide

theorem witness_EngineHasAStepExactlyWhenBusyAndReadable :
    (abc .absorb).phase = .absorb ∧ (abc .absorb).off.toNat ≤ (abc .absorb).len.toNat ∧
    nextWord (abc .done) = .noStep ∧ nextWord (absorbing 7 0 4 0 [1, 2, 3]) = .noStep := by decide

theorem witness_StepRunsTheIssuedOperation :
    nextWord (abc .absorb) = .word 0x400636261 ∧ decode 0x400636261#35 = .ok (.tail3 0x636261) ∧
    (abc .absorb).moves = [] ∧
    { abc .absorb with moves := [Move.engine, .read 4] }.moves = .engine :: [.read 4] := by decide

theorem witness_FetchedWordIsRunNext :
    Instr.wf (.tail3 0xFFFFFF) = true ∧
    nextWord (State.reset.withFetchWord 40 0x400FFFFFF) = .word 0x400FFFFFF := by decide

theorem witness_EveryStepKeepsTheInvariant :
    (abc .absorb).Inv ∧ (after (step (abc .absorb))).isSome = true := by decide

theorem witness_PermittedMovesNeverStop : ∃ s : State, s.Inv ∧ s.moves.head? = some (.place 3 9) ∧
    s.phase.busy = true ∧ ∀ m, s.moves.head? = some m → m.permitted s :=
  ⟨{ abc .absorb with moves := [.place 3 9] }, by decide, rfl, rfl, by
    intro m hm
    cases hm
    intro _
    decide⟩

theorem witness_PhaseChangesInItsPlacesOnly :
    (∃ t, step { abc .done with moves := [.write 0 1] } = .next t ∧ t.phase ≠ .done) ∧
    (∃ t, step (abc .init) = .next t ∧ t.phase ≠ .init) ∧
    (∃ t, step (absorbing 7 4 4 0 []) = .next t ∧ t.phase ≠ .absorb) ∧
    (∃ t, step { abc .absorb with moves := [.reset] } = .next t ∧ t.phase ≠ .absorb) :=
  ⟨⟨_, rfl, by decide⟩, ⟨_, rfl, by decide⟩, ⟨_, rfl, by decide⟩, ⟨_, rfl, by decide⟩⟩

theorem witness_SeedAndLenChangeByHostOrReset :
    (∃ t, step { abc .idle with moves := [.write 2 9] } = .next t ∧ t.seed ≠ (abc .idle).seed) ∧
    (∃ t, step { abc .absorb with moves := [.reset] } = .next t ∧ t.len ≠ (abc .absorb).len) :=
  ⟨⟨_, rfl, by decide⟩, ⟨_, rfl, by decide⟩⟩

theorem witness_SeedIsUsedByInitOnly :
    (abc .absorb).phase ≠ .init ∧ (after (engineStep (abc .absorb))).isSome = true := by decide

theorem witness_StatusIsAViewOfPhase : (abc .idle).phase = .idle ∧ (abc .init).phase = .init ∧
    (abc .absorb).phase = .absorb ∧ (abc .done).phase = .done := by decide

theorem witness_HostReadsReturnTheirRegisters : (abc .done).phase = .done ∧ (abc .absorb).phase ≠ .done := by decide

theorem witness_OperandWritesAreDroppedWhileBusy :
    ((abc .idle).phase = .idle ∨ (abc .idle).phase = .done) ∧ ((abc .done).phase = .idle ∨ (abc .done).phase = .done) ∧
    ((abc .init).phase = .init ∨ (abc .init).phase = .absorb) ∧
    ((abc .absorb).phase = .init ∨ (abc .absorb).phase = .absorb) := by decide

theorem witness_ReadOnlyRegistersDropWrites :
    { abc .idle with moves := [Move.write 1 7] }.moves = .write 1 7 :: [] ∧
    { abc .idle with moves := [Move.write 4 7] }.moves = .write 4 7 :: [] := by decide

theorem witness_StartIsAcceptedWhenNotBusy :
    (3#32).getLsbD 0 = true ∧ (2#32).getLsbD 0 = false ∧ (abc .done).phase = .done ∧ (abc .init).phase = .init := by
  decide

theorem witness_NoRegisterFiveToSeven : 5 ≤ (5 : RegNum).toNat ∧ 5 ≤ (7 : RegNum).toNat := by decide

theorem witness_ResetAbandonsEverything :
    { abc .absorb with moves := [Move.reset] }.moves = .reset :: [] := by decide

theorem witness_HostCannotDisturbATransaction :
    (abc .absorb).phase.busy = true ∧ Move.write 2 9 ≠ .engine ∧ Move.write 2 9 ≠ .reset ∧
    (after (step { abc .absorb with moves := [.write 2 9] })).isSome = true := by decide

theorem witness_HostMoveAndEngineStepCommuteOnH :
    (abc .absorb).Inv ∧ (abc .absorb).phase.busy = true ∧ (Move.write 2 9).harmless (abc .absorb).len.toNat ∧
    (Move.place 3 9).harmless (abc .absorb).len.toNat :=
  ⟨by decide, by decide, show (2 : RegNum).toNat ≤ 4 by decide,
    show (abc .absorb).len.toNat ≤ (3#32).toNat by decide⟩

theorem witness_DigestStaysUntilTheNextStart : ∃ (s : State) (ms : List Move), s.phase = .done ∧ s.moves = ms ∧
    ms.length = 4 ∧ ∀ m ∈ ms, m = .engine ∨ m.harmless 0 ∧ ∀ v, m = .write 0 v → v.getLsbD 0 = false :=
  ⟨{ abc .done with moves := [.engine, .write 0 2, .place 0 9, .read 4] }, _, rfl, rfl, rfl, by
    simp [Move.harmless]⟩

theorem witness_HostBoundaryTruncatesSeedAndRefusesLength :
    2 ^ 32 ≤ (List.replicate (2 ^ 32) (0 : Byte)).length ∧ ([] : List Byte).length < 2 ^ 32 := by
  simp only [List.length_replicate, List.length_nil]
  omega

theorem witness_EnginesAreIndependent : ∃ q,
    Platform.step 1 ⟨[abc .done, abc .absorb]⟩ = .next q ∧ (0 : Nat) ≠ 1 := ⟨_, rfl, by decide⟩

theorem witness_EnginesNeverShareASourceOfFreeValues : ∃ q, Platform.step 1
    ⟨[State.reset, { State.reset with freeSource := 1, moves := [.reset] }]⟩ = .next q ∧
      q.engines.map State.freeSource = [0, 1] := ⟨_, rfl, rfl⟩

theorem witness_HashWordsAreLittleEndian :
    [0x61, 0x62, 0x63].length % 4 ≠ 0 ∧ 0 < [0x61, 0x62, 0x63, 0x64].length / 4 := by decide

theorem witness_EngineIssuesTheCanonicalStream :
    (abc .init).phase = .init ∧ (abc .init).holds [0x61, 0x62, 0x63] ∧ stepCount 3 ≤ 3 :=
  ⟨rfl, abc_holds _, by decide⟩

theorem witness_TransactionTakesItsStepCount :
    (abc .init).phase = .init ∧ (abc .init).moves = [] ∧ (abc .init).holds [0x61, 0x62, 0x63] :=
  ⟨rfl, rfl, abc_holds _⟩

theorem witness_CanonicalStreamComputesHash32 : [(0x61 : Byte)].length < 2 ^ 32 := by decide

theorem witness_TransactionComputesHash32 : ∃ s : State, (s.phase = .idle ∨ s.phase = .done) ∧
    (1#32).getLsbD 0 = true ∧ s.moves = [.write 0 1] ∧ s.holds [0x61, 0x62, 0x63] :=
  ⟨{ abc .done with moves := [.write 0 1] }, .inr rfl, by decide, rfl, abc_holds .done⟩

theorem witness_InterleavedTransactionComputesHash32 : ∃ (s : State) (ms : List Move), s.phase = .done ∧
    (1#32).getLsbD 0 = true ∧ s.holds [0x61, 0x62, 0x63] ∧ (∀ m ∈ ms, m = .engine ∨ m.harmless 3) ∧
    ms.count .engine + 1 = stepCount 3 ∧ s.moves = .write 0 1 :: (ms ++ [.engine]) :=
  ⟨{ abc .done with moves := [.write 0 1, .write 2 9, .engine, .place 3 7, .engine, .engine] },
    [.write 2 9, .engine, .place 3 7, .engine], rfl, by decide, abc_holds .done, by simp [Move.harmless],
    by decide, rfl⟩

theorem witness_CallReturnsHash32 :
    State.reset.phase.busy = false ∧ State.reset.moves = [] ∧ [(0x61 : Byte)].length < 2 ^ 32 := by decide

theorem witness_HAndOffBeforeInitCannotBeObserved :
    State.reset.sameButHOff { State.reset with h := 0, off := 0 } ∧ State.reset.phase = .idle ∧
    ∃ s', runs 1 { State.reset with moves := [.read 4] } = .next s' := ⟨rfl, rfl, _, rfl⟩

end Sys2Proof.Tests
end

section
/-! PROOFS. The architectural state (10_state.md): the invariant of MSG and OFF, where PHASE, SEED and LEN change,
STATUS and DIGEST as views, the frame of the operations, and that H and OFF before INIT cannot be observed. -/

namespace Sys2Proof.Machine

/-! ## The engine's step by phase, and what it leaves unchanged -/

theorem engineStep_of_idle {s : State} (hp : s.phase = .idle) : engineStep s = .next s := by
  simp [engineStep, nextWord, hp]

theorem engineStep_of_done {s : State} (hp : s.phase = .done) : engineStep s = .next s := by
  simp [engineStep, nextWord, hp]

theorem engineStep_of_init {s : State} (hp : s.phase = .init) : engineStep s = .next (s.beginWalk s.seed) := by
  simp [engineStep, nextWord, hp, operandInit, issue, execWord, decode, exec, execInit]

theorem engineStep_seed_len_msg {s t : State} (h : engineStep s = .next t) :
    t.seed = s.seed ∧ t.len = s.len ∧ t.msg = s.msg := by
  rcases engineStep_eq_next h with ⟨_, rfl⟩ | ⟨_, rfl⟩ | ⟨_, _, rfl⟩ | ⟨_, _, _, _, rfl⟩ |
    ⟨_, _, _, _, _, _, _, rfl⟩ <;> simp

/-- PHASE in an engine step: INIT and FIN change it, each in its own place (10_state.md R13). -/
theorem engineStep_phase {s t : State} (h : engineStep s = .next t) :
    t.phase = s.phase ∨ (s.phase = .init ∧ t.phase = .absorb) ∨
      (s.phase = .absorb ∧ s.off = s.len ∧ t.phase = .done) := by
  rcases engineStep_eq_next h with ⟨_, rfl⟩ | ⟨hp, rfl⟩ | ⟨hp, ho, rfl⟩ | ⟨_, _, _, _, rfl⟩ |
    ⟨_, _, _, _, _, _, _, rfl⟩
  · exact .inl rfl
  · exact .inr (.inl ⟨hp, rfl⟩)
  · exact .inr (.inr ⟨hp, ho, rfl⟩)
  · exact .inl (State.absorbed_phase _ _ _)
  · exact .inl (State.absorbed_phase _ _ _)

/-! ## The invariant (10_state.md R12) -/

/-- Outside ABSORB the invariant speaks of MSG only. -/
theorem State.inv_of_not_absorb {s : State} (hw : s.msg.wf = true) (hp : s.phase ≠ .absorb) : s.Inv :=
  ⟨hw, fun h => absurd h hp⟩

theorem ne_absorb_of_not_busy {p : Phase} (h : p.busy = false) : p ≠ .absorb := by
  rintro rfl
  exact absurd h (by decide)

theorem State.finished_inv {s : State} (h : Word) (hw : s.msg.wf = true) : (s.finished h).Inv :=
  State.inv_of_not_absorb hw (by simp)

/-- Message bytes absorbed within LEN keep the invariant, if OFF then is a multiple of 4 or has reached LEN. -/
theorem State.absorbed_inv {s : State} {n : Nat} (h : Word) (hw : s.msg.wf = true)
    (hle : s.off.toNat + n ≤ s.len.toNat)
    (hend : (s.off.toNat + n) % 4 = 0 ∨ s.off.toNat + n = s.len.toNat) : (s.absorbed h n).Inv := by
  have hlt := s.len.isLt
  have hoff : (s.off + BitVec.ofNat 32 n).toNat = s.off.toNat + n := by
    rw [BitVec.toNat_add, BitVec.toNat_ofNat]; omega
  refine ⟨hw, fun _ => ?_⟩
  rw [State.absorbed_off, State.absorbed_len, hoff]
  exact ⟨hle, hend.imp_right fun he => BitVec.eq_of_toNat_eq (hoff.trans he)⟩

/-- An engine step keeps the invariant: INIT starts at 0, a block moves OFF by 4 within LEN, the tail moves it to LEN. -/
theorem engineStep_keeps_inv {s t : State} (hi : s.Inv) (h : engineStep s = .next t) : t.Inv := by
  obtain ⟨hw, ho⟩ := hi
  rcases engineStep_eq_next h with ⟨_, rfl⟩ | ⟨_, rfl⟩ | ⟨_, _, rfl⟩ | ⟨v, hp, hl, _, rfl⟩ |
    ⟨n, v, hp, _, _, hl, _, rfl⟩
  · exact ⟨hw, ho⟩
  · exact ⟨hw, fun _ => ⟨Nat.zero_le _, .inl rfl⟩⟩
  · exact State.finished_inv _ hw
  · obtain ⟨-, hal⟩ := ho hp
    have hal : s.off.toNat % 4 = 0 := hal.resolve_right fun he => by rw [he] at hl; omega
    exact State.absorbed_inv _ hw hl (.inl (by omega))
  · exact State.absorbed_inv _ hw (by omega) (.inr hl.symm)

/-- Settles O29, move by move: only a placed byte touches MSG, and in ABSORB only the engine touches OFF and LEN. -/
theorem everyStepKeepsTheInvariant : Obligations.EveryStepKeepsTheInvariant := by
  intro s t hi h
  obtain ⟨hw, ho⟩ := hi
  rcases step_eq_next h with ⟨ms, _, he⟩ | ⟨i, v, n, ms, _, rfl⟩ |
    ⟨i, v, ms, _, rfl | ⟨_, _, _, rfl⟩ | ⟨_, _, rfl⟩ | ⟨_, hb, rfl⟩⟩ | ⟨o, b, ms, _, _, rfl⟩ | ⟨ms, _, rfl⟩ |
    ⟨ms, m, ms', _, _, rfl⟩
  · exact engineStep_keeps_inv (s := s.withMoves ms) ⟨hw, ho⟩ he
  · exact ⟨hw, ho⟩
  · exact ⟨hw, ho⟩
  · exact State.inv_of_not_absorb hw (by simp)
  · exact ⟨hw, ho⟩
  · exact State.inv_of_not_absorb hw (ne_absorb_of_not_busy hb)
  · exact ⟨Memory.writeByte_wf _ b o.isLt hw, ho⟩
  · exact State.inv_of_not_absorb hw (by simp)
  · exact ⟨hw, ho⟩

/-- Settles O30: after reset MSG is empty and PHASE is IDLE. -/
theorem resetMeetsTheInvariant : Obligations.ResetMeetsTheInvariant :=
  State.inv_of_not_absorb State.reset_msg_wf (by decide)

/-! ## Where PHASE, SEED and LEN change -/

/-- The engine moves when it is the first of the moves to come, or none is left. -/
theorem engine_first {s : State} {ms : List Move} (h : s.moves = [] ∧ ms = [] ∨ s.moves = .engine :: ms) :
    s.moves = [] ∨ s.moves.head? = some .engine :=
  h.imp And.left fun hm => by rw [hm]; rfl

theorem nextWord_init {s : State} (hp : s.phase = .init) : nextWord s = .word (encode (.init s.seed)) :=
  (nextWord_eq_word s 0 s.seed).2 (.inl ⟨rfl, hp, rfl⟩)

theorem nextWord_fin {s : State} (hp : s.phase = .absorb) (ho : s.off = s.len) :
    nextWord s = .word (encode (.fin s.len)) :=
  (nextWord_eq_word s 5 s.len).2 (.inr (.inl ⟨rfl, hp, ho, rfl⟩))

/-- The four values of PHASE with their codes and flags (10_state.md R13, R18). -/
theorem Phase.code_and_flags (p : Phase) : Phase.ofCode p.code = p ∧ (p.code = 0 ↔ p = .idle) ∧
    (p.code = 1 ↔ p = .init) ∧ (p.code = 2 ↔ p = .absorb) ∧ (p.code = 3 ↔ p = .done) ∧
    (p.busy = true ↔ p = .init ∨ p = .absorb) ∧ (p.isDone = true ↔ p = .done) := by
  cases p <;> decide

/-- Settles O32: the flags by cases on PHASE, the changes by the move that was taken. -/
theorem phaseChangesInItsPlacesOnly : Obligations.PhaseChangesInItsPlacesOnly := by
  refine ⟨Phase.code_and_flags, fun s t h hne => ?_⟩
  rcases step_eq_next h with ⟨ms, hm, he⟩ | ⟨i, v, n, ms, _, rfl⟩ |
    ⟨i, v, ms, hm, rfl | ⟨rfl, hv, hb, rfl⟩ | ⟨_, _, rfl⟩ | ⟨_, _, rfl⟩⟩ | ⟨o, b, ms, _, _, rfl⟩ | ⟨ms, hm, rfl⟩ |
    ⟨ms, m, ms', _, _, rfl⟩
  · rcases engineStep_phase he with hp | ⟨hp, hp'⟩ | ⟨hp, ho, hp'⟩
    · exact absurd hp hne
    · exact .inr (.inl ⟨hp, hp', engine_first hm, nextWord_init hp⟩)
    · exact .inr (.inr (.inl ⟨hp, hp', engine_first hm, nextWord_fin hp ho⟩))
  · exact absurd rfl hne
  · exact absurd rfl hne
  · exact .inl ⟨hb, rfl, v, ms, hm, hv⟩
  · exact absurd rfl hne
  · exact absurd rfl hne
  · exact absurd rfl hne
  · exact .inr (.inr (.inr ⟨rfl, by rw [hm]; rfl⟩))
  · exact absurd rfl hne

/-- Settles O33, by the move that was taken: the engine leaves both registers, and of the host's moves only a write
taken while not BUSY, and reset, set one. -/
theorem seedAndLenChangeByHostOrReset : Obligations.SeedAndLenChangeByHostOrReset := by
  intro s t h
  rcases step_eq_next h with ⟨ms, _, he⟩ | ⟨i, v, n, ms, _, rfl⟩ |
    ⟨i, v, ms, hm, rfl | ⟨_, _, _, rfl⟩ | ⟨rfl, hb, rfl⟩ | ⟨rfl, hb, rfl⟩⟩ | ⟨o, b, ms, _, _, rfl⟩ | ⟨ms, hm, rfl⟩ |
    ⟨ms, m, ms', _, _, rfl⟩
  · obtain ⟨hseed, hlen, -⟩ := engineStep_seed_len_msg he
    exact ⟨absurd hseed, absurd hlen⟩
  · exact ⟨absurd rfl, absurd rfl⟩
  · exact ⟨absurd rfl, absurd rfl⟩
  · exact ⟨absurd rfl, absurd rfl⟩
  · exact ⟨fun _ => .inl ⟨by rw [hm]; rfl, hb⟩, absurd rfl⟩
  · exact ⟨absurd rfl, fun _ => .inl ⟨by rw [hm]; rfl, hb⟩⟩
  · exact ⟨absurd rfl, absurd rfl⟩
  · have hr : s.moves.head? = some .reset := by rw [hm]; rfl
    exact ⟨fun _ => .inr ⟨hr, rfl⟩, fun _ => .inr ⟨hr, rfl⟩⟩
  · exact ⟨absurd rfl, absurd rfl⟩

/-! ## DIGEST in DONE (10_state.md R19) -/

theorem hostRead_digest_of_done {s : State} (hp : s.phase = .done) :
    hostRead 4 s = .next { s with reads := (4, s.h) :: s.reads } := by
  have hr : hostRead 4 s = .next (readDigest 4 s) := rfl
  rw [hr, readDigest, if_pos ((Phase.isDone_iff _).2 hp)]
  rfl

theorem hostRead_ne_refused {i : RegNum} (s : State) (h : i.toNat ≤ 4) :
    hostRead i s ≠ .refused .noSuchRegister := by
  obtain ⟨r, hr⟩ := hostReg_of_le h
  cases r <;> simp [hostRead, hr]

theorem hostWrite_ne_refused {i : RegNum} (v : Word) (s : State) (h : i.toNat ≤ 4) :
    hostWrite i v s ≠ .refused .noSuchRegister := by
  obtain ⟨r, hr⟩ := hostReg_of_le h
  cases r <;> simp [hostWrite, hr]

/-- In DONE the engine and every harmless host move that is no START leave PHASE, H and the moves to come. -/
theorem perform_in_done {s : State} {m : Move} (hp : s.phase = .done)
    (hm : m = .engine ∨ m.harmless 0 ∧ ∀ v, m = .write 0 v → v.getLsbD 0 = false) :
    ∃ t, perform m s = .next t ∧ t.phase = .done ∧ t.h = s.h ∧ t.moves = s.moves := by
  rcases hm with rfl | ⟨hm, hstart⟩
  · exact ⟨s, engineStep_of_done hp, hp, rfl, rfl⟩
  · cases m with
    | read i =>
      rcases hostRead_cases i s with ⟨v, n, e⟩ | e
      · exact ⟨_, e, hp, rfl, rfl⟩
      · exact absurd e (hostRead_ne_refused s hm)
    | write i v =>
      rcases hostWrite_cases i v s with e | ⟨rfl, hv, _, _⟩ | ⟨_, _, e⟩ | ⟨_, _, e⟩ | e
      · exact ⟨_, e, hp, rfl, rfl⟩
      · exact absurd hv (by rw [hstart v rfl]; exact Bool.false_ne_true)
      · exact ⟨_, e, hp, rfl, rfl⟩
      · exact ⟨_, e, hp, rfl, rfl⟩
      · exact absurd e (hostWrite_ne_refused v s hm)
    | place o b =>
      rcases hostPlace_cases o b s with ⟨_, e⟩ | ⟨hb, _, _⟩
      · exact ⟨_, e, hp, rfl, rfl⟩
      · exact absurd hb (by simp [hp, Phase.busy])
    | engine | reset | waitFree | waitDone => exact hm.elim

/-- Settles O45, by induction on the list of moves. -/
theorem digestStaysUntilTheNextStart : Obligations.DigestStaysUntilTheNextStart := by
  intro s ms hp hms hall
  induction ms generalizing s with
  | nil => exact ⟨s, rfl, hp, rfl, hostRead_digest_of_done hp⟩
  | cons m rest ih =>
    obtain ⟨u, hu, hup, huh, hum⟩ := perform_in_done (s := s.withMoves rest) hp (hall m List.mem_cons_self)
    obtain ⟨t, ht, htp, hth, hrd⟩ := ih u hup hum fun m' hm' => hall m' (List.mem_cons_of_mem m hm')
    have huh : u.h = s.h := huh
    rw [huh] at hth hrd
    exact ⟨t, by rw [List.length_cons, runs_succ_of_next _ ((step_cons hms).trans hu), ht], htp, hth, hrd⟩

/-! ## The frame of the operations -/

theorem tailMix_eq_next {n : Nat} {v : Word} {s t : State} (h : tailMix n v s = .next t) :
    v.toNat < 2 ^ (8 * n) ∧ t = s.absorbed (s.h ^^^ mixk v) n := by
  rcases tailMix_cases n v s with ⟨hv, e⟩ | ⟨_, e⟩
  · exact ⟨hv, (Host.Outcome.next.inj (e.symm.trans h)).symm⟩
  · cases e.symm.trans h

/-- Everything an operation can do: INIT begins the walk, BLK and TAILn absorb, FIN finishes. -/
theorem exec_eq_next {i : Instr} {s t : State} (h : exec i s = .next t) :
    (∃ v, i = .init v ∧ t = s.beginWalk v) ∨
    (∃ v, i = .blk v ∧ t = s.absorbed (round s.h v) 4) ∨
    (∃ n v, (i = .tail1 v ∧ n = 1 ∨ i = .tail2 v ∧ n = 2 ∨ i = .tail3 v ∧ n = 3) ∧ v.toNat < 2 ^ (8 * n) ∧
      t = s.absorbed (s.h ^^^ mixk v) n) ∨
    (∃ v, i = .fin v ∧ t = s.finished (fmix (s.h ^^^ v))) := by
  cases i with
  | init v => exact .inl ⟨v, rfl, (Host.Outcome.next.inj h).symm⟩
  | blk v => exact .inr (.inl ⟨v, rfl, (Host.Outcome.next.inj h).symm⟩)
  | tail1 v => exact .inr (.inr (.inl ⟨1, v, .inl ⟨rfl, rfl⟩, tailMix_eq_next h⟩))
  | tail2 v => exact .inr (.inr (.inl ⟨2, v, .inr (.inl ⟨rfl, rfl⟩), tailMix_eq_next h⟩))
  | tail3 v => exact .inr (.inr (.inl ⟨3, v, .inr (.inr ⟨rfl, rfl⟩), tailMix_eq_next h⟩))
  | fin v => exact .inr (.inr (.inr ⟨v, rfl, (Host.Outcome.next.inj h).symm⟩))

/-- Settles O24, by what each operation does. -/
theorem operationsLeaveTheRestUnchanged : Obligations.OperationsLeaveTheRestUnchanged := by
  intro i s t h
  rcases exec_eq_next h with ⟨v, rfl, rfl⟩ | ⟨v, rfl, rfl⟩ | ⟨n, v, hi, _, rfl⟩ | ⟨v, rfl, rfl⟩
  · simp [Instr.mnemonic]
  · simp [Instr.mnemonic]
  · rcases hi with ⟨rfl, _⟩ | ⟨rfl, _⟩ | ⟨rfl, _⟩ <;> simp [Instr.mnemonic]
  · simp [Instr.mnemonic]

/-! ## STATUS, and the state after reset -/

theorem State.status_of_idle {s : State} (hp : s.phase = .idle) : s.status = 0 := by
  rw [State.status, hp]; rfl

theorem State.status_of_busy {s : State} (hp : s.phase.busy = true) : s.status = 1 := by
  rcases (Phase.busy_iff _).1 hp with hp | hp <;> rw [State.status, hp] <;> rfl

theorem State.status_of_done {s : State} (hp : s.phase = .done) : s.status = 2 := by
  rw [State.status, hp]; rfl

/-- No bit of STATUS above DONE is set. -/
theorem State.status_toNat_lt (s : State) : s.status.toNat < 2 ^ 2 := by
  cases hp : s.phase <;> simp [State.status, hp, Phase.busy, Phase.isDone]

/-- Settles O35, by cases on PHASE. -/
theorem statusIsAViewOfPhase : Obligations.StatusIsAViewOfPhase := by
  intro s
  refine ⟨State.status_of_idle, fun hp => State.status_of_busy ((Phase.busy_iff _).2 hp), State.status_of_done,
    ?_, ?_, fun j hj => ?_, fun v => rfl⟩
  · cases hp : s.phase <;> rw [State.status, hp] <;> rfl
  · cases hp : s.phase <;> rw [State.status, hp] <;> rfl
  · exact Nat.testBit_lt_two_pow (Nat.lt_of_lt_of_le s.status_toNat_lt (Nat.pow_le_pow_right (by decide) hj))

/-- Settles O42: the values of the reset state, and what its first reads return. -/
theorem resetState : Obligations.ResetState :=
  ⟨rfl, rfl, rfl, State.status_of_idle rfl, rfl, rfl⟩

/-! ## H and OFF before INIT (10_state.md R11, R24) -/

/-- The state with other values in H and OFF. -/
def State.withHOff (s : State) (h off : Word) : State := { s with h := h, off := off }

@[simp] theorem State.withHOff_phase (s : State) (h off : Word) : (s.withHOff h off).phase = s.phase := (rfl)

theorem State.sameButHOff_iff {s t : State} : s.sameButHOff t ↔ t = s.withHOff t.h t.off := by
  cases s
  cases t
  simp [State.sameButHOff, State.withHOff, eq_comm]

/-- Two states that nothing can tell apart: the same, or before INIT and different at most in H and OFF. -/
def State.Alike (s t : State) : Prop :=
  t = s ∨ (s.phase = .idle ∨ s.phase = .init) ∧ ∃ h off, t = s.withHOff h off

/-- Before INIT other values in H and OFF give a state alike. -/
theorem State.alike_withHOff {s : State} (a b : Word) (hp : s.phase = .idle ∨ s.phase = .init) :
    s.Alike (s.withHOff a b) := .inr ⟨hp, a, b, rfl⟩

theorem State.Alike.sameButHOff {s t : State} (h : s.Alike t) : s.sameButHOff t := by
  rcases h with rfl | ⟨_, a, b, rfl⟩ <;> rfl

theorem State.Alike.h_eq_of_done {s t : State} (h : s.Alike t) (hp : s.phase = .done) : s.h = t.h := by
  rcases h with rfl | ⟨hi, _⟩
  · rfl
  · simp [hp] at hi

theorem hostRead_withHOff {i : RegNum} {s t : State} (a b : Word) (hd : s.phase.isDone = false)
    (h : hostRead i s = .next t) : hostRead i (s.withHOff a b) = .next (t.withHOff a b) := by
  unfold hostRead readDigest at *
  rw [State.withHOff_phase, hd] at *
  cases hr : hostReg i with
  | none => simp [hr] at h
  | some r => rw [hr] at h; cases r <;> cases h <;> rfl

theorem writeCtrl_withHOff (v : Word) (s : State) (a b : Word) :
    writeCtrl v (s.withHOff a b) = (writeCtrl v s).withHOff a b := by
  rw [writeCtrl, writeCtrl, State.withHOff_phase]
  split <;> rfl

theorem writeSeed_withHOff (v : Word) (s : State) (a b : Word) :
    writeSeed v (s.withHOff a b) = (writeSeed v s).withHOff a b := by
  rw [writeSeed, writeSeed, State.withHOff_phase]
  split <;> rfl

theorem writeLen_withHOff (v : Word) (s : State) (a b : Word) :
    writeLen v (s.withHOff a b) = (writeLen v s).withHOff a b := by
  rw [writeLen, writeLen, State.withHOff_phase]
  split <;> rfl

theorem hostWrite_withHOff {i : RegNum} {v : Word} {s t : State} (a b : Word) (h : hostWrite i v s = .next t) :
    hostWrite i v (s.withHOff a b) = .next (t.withHOff a b) := by
  unfold hostWrite at *
  cases hr : hostReg i with
  | none => simp [hr] at h
  | some r =>
    rw [hr] at h
    cases r with
    | ctrl => cases h; exact congrArg _ (writeCtrl_withHOff v s a b)
    | seed => cases h; exact congrArg _ (writeSeed_withHOff v s a b)
    | len => cases h; exact congrArg _ (writeLen_withHOff v s a b)
    | status | digest => cases h; rfl

theorem hostPlace_withHOff {o : Word} {c : Byte} {s t : State} (a b : Word) (h : hostPlace o c s = .next t) :
    hostPlace o c (s.withHOff a b) = .next (t.withHOff a b) := by
  rcases hostPlace_cases o c s with ⟨hc, e⟩ | ⟨_, _, e⟩ <;> cases e.symm.trans h
  rcases hostPlace_cases o c (s.withHOff a b) with ⟨_, e'⟩ | ⟨hb, hlt, _⟩
  · exact e'
  · exact absurd hlt (Nat.not_lt.2 (hc hb))

theorem poll_withHOff (arrived : Bool) (again : Move) (s : State) (a b : Word) :
    poll arrived again (s.withHOff a b) = (poll arrived again s).withHOff a b := by
  cases arrived <;> rfl

theorem poll_phase (arrived : Bool) (again : Move) (s : State) : (poll arrived again s).phase = s.phase := by
  cases arrived <;> rfl

theorem poll_alike (arrived : Bool) (again : Move) {s : State} (a b : Word)
    (hp : s.phase = .idle ∨ s.phase = .init) : (poll arrived again s).Alike (poll arrived again (s.withHOff a b)) := by
  rw [poll_withHOff]
  exact State.alike_withHOff a b (by rwa [poll_phase])

/-- Before INIT a move does the same whatever H and OFF hold: INIT and reset overwrite both, every other move leaves
both and PHASE is still before INIT. -/
theorem perform_alike {m : Move} {s s' : State} (a b : Word) (hp : s.phase = .idle ∨ s.phase = .init)
    (h : perform m s = .next s') : ∃ t', perform m (s.withHOff a b) = .next t' ∧ s'.Alike t' := by
  cases m with
  | engine =>
    rcases hp with hp | hp
    · cases (engineStep_of_idle hp).symm.trans h
      exact ⟨_, engineStep_of_idle hp, State.alike_withHOff a b (.inl hp)⟩
    · cases (engineStep_of_init hp).symm.trans h
      exact ⟨_, engineStep_of_init (s := s.withHOff a b) hp, .inl rfl⟩
  | read i =>
    have hd : s.phase.isDone = false := by rcases hp with hp | hp <;> rw [hp] <;> rfl
    refine ⟨_, hostRead_withHOff a b hd h, State.alike_withHOff a b ?_⟩
    rcases hostRead_cases i s with ⟨v, n, e⟩ | e <;> cases e.symm.trans h
    exact hp
  | write i v =>
    refine ⟨_, hostWrite_withHOff a b h, State.alike_withHOff a b ?_⟩
    rcases hostWrite_cases i v s with e | ⟨_, _, _, e⟩ | ⟨_, _, e⟩ | ⟨_, _, e⟩ | e <;> cases e.symm.trans h
    · exact hp
    · exact .inr rfl
    · exact hp
    · exact hp
  | place o c =>
    refine ⟨_, hostPlace_withHOff a b h, State.alike_withHOff a b ?_⟩
    rcases hostPlace_cases o c s with ⟨_, e⟩ | ⟨_, _, e⟩ <;> cases e.symm.trans h
    exact hp
  | reset =>
    cases h
    exact ⟨_, rfl, .inl rfl⟩
  | waitFree =>
    cases h
    exact ⟨_, rfl, poll_alike _ _ a b hp⟩
  | waitDone =>
    cases h
    exact ⟨_, rfl, poll_alike _ _ a b hp⟩

/-- A step of two states alike gives two states alike. -/
theorem step_alike {s t s' : State} (ha : s.Alike t) (h : step s = .next s') :
    ∃ t', step t = .next t' ∧ s'.Alike t' := by
  rcases ha with rfl | ⟨hp, a, b, rfl⟩
  · exact ⟨s', h, .inl rfl⟩
  · cases hm : s.moves with
    | nil =>
      rw [step_nil hm] at h
      rw [step_nil (s := s.withHOff a b) hm]
      exact perform_alike (m := .engine) a b hp h
    | cons m rest =>
      rw [step_cons hm] at h
      rw [step_cons (s := s.withHOff a b) hm]
      exact perform_alike (s := s.withMoves rest) a b hp h

theorem runs_alike {n : Nat} {s t s' : State} (ha : s.Alike t) (h : runs n s = .next s') :
    ∃ t', runs n t = .next t' ∧ s'.Alike t' := by
  induction n generalizing s t with
  | zero =>
    cases h
    exact ⟨t, rfl, ha⟩
  | succ n ih =>
    obtain ⟨u, hu, hr⟩ := runs_succ_eq_next h
    obtain ⟨w, hw, haw⟩ := step_alike ha hu
    rw [runs_succ_of_next n hw]
    exact ih haw hr

/-- Settles O56: states that differ at most in H and OFF before INIT are alike, and stay alike along every run. -/
theorem hAndOffBeforeInitCannotBeObserved : Obligations.HAndOffBeforeInitCannotBeObserved := by
  intro s t n s' hst hp h
  have ha : s.Alike t := State.sameButHOff_iff.1 hst ▸ State.alike_withHOff t.h t.off hp
  obtain ⟨t', ht, ha'⟩ := runs_alike ha h
  exact ⟨t', ht, ha'.sameButHOff, ha'.h_eq_of_done⟩

end Sys2Proof.Machine
end

section
/-! PROOFS. The message space (20_memory.md): what a wide read gives, the engine stuck on an unreadable byte, who
writes MSG, a placed byte, and the bytes at LEN and above. -/

namespace Sys2Proof.Machine

/-! ## A wide read as a sum (20_memory.md R33) -/

theorem Memory.memRead_succ {m : Memory} {a n : Nat} {b : Byte} {r : Word} (hb : m.readByte a = some b)
    (hr : m.memRead (a + 1) n = some r) : m.memRead a (n + 1) = some (b.setWidth 32 ||| r <<< 8) := by
  simp [Memory.memRead, hb, hr]

/-- A byte put below a word of at most 24 bits adds up: the two share no bit. -/
theorem byte_or_shiftLeft_toNat (b : Byte) {r : Word} (hr : r.toNat < 2 ^ 24) :
    (b.setWidth 32 ||| r <<< 8).toNat = b.toNat + 2 ^ 8 * r.toNat := by
  have hb : b.toNat < 2 ^ 8 := b.isLt
  have hlow : (b.setWidth 32).toNat = b.toNat := BitVec.toNat_setWidth_of_le (by decide)
  have hhigh : (r <<< 8).toNat = r.toNat <<< 8 := by
    rw [BitVec.toNat_shiftLeft, Nat.shiftLeft_eq]
    omega
  rw [BitVec.toNat_or, hlow, hhigh, Nat.or_comm, ← Nat.shiftLeft_add_eq_or_of_lt hb, Nat.shiftLeft_eq]
  omega

/-- A wide read of up to four readable bytes gives their little-endian sum. -/
theorem Memory.memRead_eq_sum {m : Memory} {a n : Nat} {b : Nat → Byte} (hn : n ≤ 4)
    (h : ∀ i, i < n → m.readByte (a + i) = some (b i)) :
    ∃ v, m.memRead a n = some v ∧ v.toNat = ∑ i ∈ Finset.range n, (b i).toNat * 2 ^ (8 * i) := by
  induction n generalizing a b with
  | zero => exact ⟨0, rfl, rfl⟩
  | succ n ih =>
    obtain ⟨r, hr, hsum⟩ := ih (a := a + 1) (b := fun i => b (i + 1)) (by omega) fun i hi => by
      rw [Nat.add_assoc, Nat.add_comm 1 i]
      exact h (i + 1) (by omega)
    have hlt : r.toNat < 2 ^ 24 :=
      Nat.lt_of_lt_of_le (memRead_lt hr) (Nat.pow_le_pow_right (by decide) (by omega))
    refine ⟨_, memRead_succ (h 0 (Nat.succ_pos n)) hr, ?_⟩
    rw [byte_or_shiftLeft_toNat _ hlt, hsum, Finset.sum_range_succ', Finset.mul_sum, Nat.add_comm]
    congr 1
    · exact Finset.sum_congr rfl fun i _ => by ring
    · simp

/-- Settles O13: the sum by induction on the number of bytes, the OR form of a block by the law of the four-byte read. -/
theorem memReadIsTheLittleEndianSum : Obligations.MemReadIsTheLittleEndianSum := by
  intro m a n b _ hn h
  obtain ⟨v, hv, hsum⟩ := Memory.memRead_eq_sum hn h
  refine ⟨v, hv, hsum, ?_⟩
  rintro rfl
  exact Option.some.inj (hv.symm.trans (Memory.memRead_four m a b h))

/-! ## An unreadable byte (20_memory.md R39) -/

theorem Memory.memRead_eq_none {m : Memory} {a n j : Nat} (h1 : a ≤ j) (h2 : j < a + n)
    (hj : m.readByte j = none) : m.memRead a n = none := by
  rw [← Option.not_isSome_iff_eq_none, memRead_isSome]
  intro h
  simpa [hj] using h j h1 h2

/-- In ABSORB, with a byte it asks for unreadable, the engine has no step. -/
theorem engineStep_of_unreadable {s : State} {j : Nat} (hp : s.phase = .absorb) (hle : s.off.toNat ≤ s.len.toNat)
    (h1 : s.off.toNat ≤ j) (h2 : j < s.off.toNat + s.bytesAsked) (hj : s.msg.readByte j = none) :
    engineStep s = .next s := by
  have hask : s.bytesAsked = min 4 (s.len.toNat - s.off.toNat) := rfl
  rcases engineStep_cases s with ⟨_, _, e⟩ | ⟨_, hgt, _⟩ | ⟨hi, _⟩ | ⟨_, ho, _⟩ | ⟨v, _, _, hm, _⟩ |
    ⟨n, v, _, _, _, hl, hm, _⟩
  · exact e
  · omega
  · simp [hp] at hi
  · rw [ho] at hask h1 h2
    omega
  · rw [Memory.memRead_eq_none h1 (by omega) hj] at hm
    cases hm
  · rw [Memory.memRead_eq_none h1 (by omega) hj] at hm
    cases hm

theorem runs_of_step_self {s : State} (h : step s = .next s) (n : Nat) : runs n s = .next s := by
  induction n with
  | zero => rfl
  | succ n ih => rw [runs_succ_of_next n h, ih]

/-- Settles O14: the engine's step there is to the same state, and so is every run. -/
theorem unreadableByteLeavesTheEngineStuck : Obligations.UnreadableByteLeavesTheEngineStuck := by
  intro s j hp hle hm h1 h2 hj
  have hstep : step s = .next s := (step_nil hm).trans (engineStep_of_unreadable hp hle h1 h2 hj)
  exact ⟨State.status_of_busy ((Phase.busy_iff _).2 (.inr hp)), runs_of_step_self hstep⟩

/-! ## Who writes MSG (20_memory.md R31, R42) -/

theorem engineStep_reads {s t : State} (h : engineStep s = .next t) : t.reads = s.reads := by
  rcases engineStep_eq_next h with ⟨_, rfl⟩ | ⟨_, rfl⟩ | ⟨_, _, rfl⟩ | ⟨_, _, _, _, rfl⟩ |
    ⟨_, _, _, _, _, _, _, rfl⟩ <;> simp

/-- A step leaves MSG as it is, or it places a byte, at LEN or above while BUSY. -/
theorem step_msg {s t : State} (h : step s = .next t) :
    t.msg = s.msg ∨ ∃ o b ms, s.moves = .place o b :: ms ∧ (s.phase.busy = true → s.len.toNat ≤ o.toNat) ∧
      t.msg = s.msg.writeByte o.toNat b := by
  rcases step_eq_next h with ⟨ms, _, he⟩ | ⟨i, v, n, ms, _, rfl⟩ |
    ⟨i, v, ms, _, rfl | ⟨_, _, _, rfl⟩ | ⟨_, _, rfl⟩ | ⟨_, _, rfl⟩⟩ | ⟨o, b, ms, hm, hc, rfl⟩ | ⟨ms, _, rfl⟩ |
    ⟨ms, m, ms', _, _, rfl⟩
  · obtain ⟨-, -, hmsg⟩ := engineStep_seed_len_msg he
    exact .inl hmsg
  · exact .inl rfl
  · exact .inl rfl
  · exact .inl rfl
  · exact .inl rfl
  · exact .inl rfl
  · exact .inr ⟨o, b, ms, hm, hc, rfl⟩
  · exact .inl rfl
  · exact .inl rfl

/-- Settles O15: the engine keeps MSG, and of a whole step only a placed byte writes it, at its own offset. -/
theorem engineNeverWritesMemory : Obligations.EngineNeverWritesMemory := by
  refine ⟨fun s t h => ?_, fun s t a h hne => ?_⟩
  · obtain ⟨-, -, hmsg⟩ := engineStep_seed_len_msg h
    exact ⟨fun a => by rw [hmsg], engineStep_reads h⟩
  · rcases step_msg h with hmsg | ⟨o, b, ms, hm, hc, hmsg⟩
    · exact absurd (by rw [hmsg]) hne
    · have ha : a = o.toNat := by
        by_contra hao
        exact hne (by rw [hmsg, Memory.readByte_writeByte_other _ _ hao])
      subst ha
      exact ⟨o, b, ms, hm, rfl, by rw [hmsg, Memory.readByte_writeByte_same], hc⟩

/-- Settles O16, by what placing a byte can do: it is written, or the step is refused. -/
theorem placedByteIsReadBackOrRefused : Obligations.PlacedByteIsReadBackOrRefused := by
  intro s o b rest hm
  have hstep : step s = hostPlace o b (s.withMoves rest) := step_cons hm
  rw [hstep]
  rcases hostPlace_cases o b (s.withMoves rest) with ⟨hc, e⟩ | ⟨hb, hlt, e⟩
  · refine ⟨fun ⟨hb, hlt⟩ => absurd hlt (Nat.not_lt.2 (hc hb)), fun _ => ⟨s.msg.writeByte o.toNat b, e, ?_, ?_⟩⟩
    · exact Memory.readByte_writeByte_same _ _ _
    · exact fun a ha => Memory.readByte_writeByte_other _ _ ha
  · refine ⟨fun _ => e, ?_⟩
    rintro (hnb | hge)
    · exact absurd (hb.symm.trans hnb) (by decide)
    · exact absurd hlt (Nat.not_lt.2 hge)

/-! ## Bytes at LEN and above (20_memory.md R35) -/

/-- The state with another message space. -/
def State.withMsg (s : State) (m : Memory) : State := { s with msg := m }

@[simp] theorem State.withMsg_phase (s : State) (m : Memory) : (s.withMsg m).phase = s.phase := (rfl)
@[simp] theorem State.withMsg_off (s : State) (m : Memory) : (s.withMsg m).off = s.off := (rfl)
@[simp] theorem State.withMsg_len (s : State) (m : Memory) : (s.withMsg m).len = s.len := (rfl)
@[simp] theorem State.withMsg_msg (s : State) (m : Memory) : (s.withMsg m).msg = m := (rfl)

/-- The choice in ABSORB reads no byte at LEN or above. -/
theorem absorbWord_withMsg {s : State} {m : Memory} (h : s.sameMessage (s.withMsg m)) :
    absorbWord (s.withMsg m) = absorbWord s := by
  have hread (n : Nat) (hn : s.off.toNat + n ≤ s.len.toNat) :
      m.memRead s.off.toNat n = s.msg.memRead s.off.toNat n :=
    Memory.memRead_congr fun j _ hj => (h j (by omega)).symm
  unfold absorbWord
  rw [State.withMsg_len, State.withMsg_off]
  split
  · rfl
  · split
    · rfl
    · exact congrArg (issue 2) (hread 1 (by omega))
    · exact congrArg (issue 3) (hread 2 (by omega))
    · exact congrArg (issue 4) (hread 3 (by omega))
    · rename_i hle h0 h1 h2 h3
      exact congrArg (issue 1) (hread 4 (by grind))

theorem nextWord_withMsg {s : State} {m : Memory} (h : s.sameMessage (s.withMsg m)) :
    nextWord (s.withMsg m) = nextWord s := by
  unfold nextWord
  rw [State.withMsg_phase]
  split
  · rfl
  · rfl
  · exact absorbWord_withMsg h
  · rfl

theorem tailMix_withMsg {n : Nat} {v : Word} {s t : State} (m : Memory) (h : tailMix n v s = .next t) :
    tailMix n v (s.withMsg m) = .next (t.withMsg m) := by
  obtain ⟨hv, rfl⟩ := tailMix_eq_next h
  exact if_pos ((tailZeros_iff n v).2 hv)

/-- An operation does the same whatever MSG holds. -/
theorem exec_withMsg {i : Instr} {s t : State} (m : Memory) (h : exec i s = .next t) :
    exec i (s.withMsg m) = .next (t.withMsg m) := by
  rcases exec_eq_next h with ⟨v, rfl, rfl⟩ | ⟨v, rfl, rfl⟩ | ⟨n, v, hi, _, _⟩ | ⟨v, rfl, rfl⟩
  · rfl
  · rfl
  · rcases hi with ⟨rfl, _⟩ | ⟨rfl, _⟩ | ⟨rfl, _⟩ <;> exact tailMix_withMsg m h
  · rfl

theorem execWord_withMsg {w : OpWord} {s t : State} (m : Memory) (h : execWord w s = .next t) :
    execWord w (s.withMsg m) = .next (t.withMsg m) := by
  unfold execWord at *
  cases hd : decode w with
  | ok i =>
    rw [hd] at h
    exact exec_withMsg m h
  | invalid e => simp [hd] at h

/-- An engine step reads no byte at LEN or above. -/
theorem engineStep_withMsg {s t : State} {m : Memory} (hs : s.sameMessage (s.withMsg m))
    (h : engineStep s = .next t) : engineStep (s.withMsg m) = .next (t.withMsg m) := by
  unfold engineStep at *
  rw [nextWord_withMsg hs]
  cases hw : nextWord s with
  | word w =>
    rw [hw] at h
    exact execWord_withMsg m h
  | noStep =>
    rw [hw] at h
    cases h
    rfl
  | pastLength => simp [hw] at h

/-- Settles O17: with the same bytes below LEN the sequencer selects the same word, and no operation reads MSG. The
invariant is not needed: with OFF above LEN the engine has no next state. -/
theorem bytesBeyondLenHaveNoInfluence : Obligations.BytesBeyondLenHaveNoInfluence := by
  intro s t m _ hsame h
  exact engineStep_withMsg (fun j hj => (hsame j hj).symm) h

end Sys2Proof.Machine
end

section
/-! PROOFS. Operation words and how they are written (30_encoding.md): encoding and decoding are inverse, the decoder's
listing and the count of its valid words, the table of masks, what the sequencer issues, and that a printed line
assembles to what was printed. -/

namespace Sys2Proof

/-! ## An operation as its code and its operand (R45, R46) -/

/-- How many operand bits the words of an operation have (R48: 8n for TAILn, else all 32). -/
def Instr.operandBits : Instr → Nat
  | .init _ => 32
  | .blk _ => 32
  | .tail1 _ => 8
  | .tail2 _ => 16
  | .tail3 _ => 24
  | .fin _ => 32

/-- The same operation with another operand. -/
def Instr.withOperand : Instr → Word → Instr
  | .init _ => .init
  | .blk _ => .blk
  | .tail1 _ => .tail1
  | .tail2 _ => .tail2
  | .tail3 _ => .tail3
  | .fin _ => .fin

@[simp] theorem Instr.withOperand_operand (i : Instr) (v : Word) : (i.withOperand v).operand = v := by
  cases i <;> rfl

@[simp] theorem Instr.withOperand_opcode (i : Instr) (v : Word) : (i.withOperand v).opcode = i.opcode := by
  cases i <;> rfl

@[simp] theorem Instr.withOperand_operandBits (i : Instr) (v : Word) :
    (i.withOperand v).operandBits = i.operandBits := by
  cases i <;> rfl

@[simp] theorem Instr.withOperand_self (i : Instr) : i.withOperand i.operand = i := by
  cases i <;> rfl

@[simp] theorem Instr.withOperand_mnemonic (i : Instr) (v : Word) : (i.withOperand v).mnemonic = i.mnemonic := by
  cases i <;> rfl

/-- One operation of each kind. -/
def operationKinds : Finset Instr := {.init 0, .blk 0, .tail1 0, .tail2 0, .tail3 0, .fin 0}

theorem Instr.withOperand_zero_mem (i : Instr) : i.withOperand 0 ∈ operationKinds := by
  cases i <;> simp [operationKinds, Instr.withOperand]

theorem Instr.operandBits_le (i : Instr) : i.operandBits ≤ 32 := by
  have kinds : ∀ k ∈ operationKinds, k.operandBits ≤ 32 := by decide
  simpa using kinds _ i.withOperand_zero_mem

theorem Instr.two_pow_operandBits_le (i : Instr) : 2 ^ i.operandBits ≤ 2 ^ 32 :=
  Nat.pow_le_pow_right (by decide) i.operandBits_le

theorem Instr.opcode_le (i : Instr) : i.opcode.toNat ≤ 5 := by
  have kinds : ∀ k ∈ operationKinds, k.opcode.toNat ≤ 5 := by decide
  simpa using kinds _ i.withOperand_zero_mem

/-- The code tells the number of operand bits. -/
theorem Instr.operandBits_congr {i j : Instr} (h : i.opcode = j.opcode) : i.operandBits = j.operandBits := by
  have kinds : ∀ k ∈ operationKinds, ∀ l ∈ operationKinds, k.opcode = l.opcode → k.operandBits = l.operandBits := by
    decide
  simpa [h] using kinds _ i.withOperand_zero_mem _ j.withOperand_zero_mem

/-- The code and the mnemonic tell the same about an operation. -/
theorem Instr.mnemonic_eq_iff (i j : Instr) : i.mnemonic = j.mnemonic ↔ i.opcode = j.opcode := by
  have kinds : ∀ k ∈ operationKinds, ∀ l ∈ operationKinds, k.mnemonic = l.mnemonic ↔ k.opcode = l.opcode := by
    decide
  simpa using kinds _ i.withOperand_zero_mem _ j.withOperand_zero_mem

/-- An operation is well-formed when its operand fits in its operand bits. -/
theorem Instr.wf_iff (i : Instr) : i.wf = true ↔ i.operand.toNat < 2 ^ i.operandBits := by
  cases i with
  | init v => exact iff_of_true rfl v.isLt
  | blk v => exact iff_of_true rfl v.isLt
  | tail1 v => exact decide_eq_true_iff
  | tail2 v => exact decide_eq_true_iff
  | tail3 v => exact decide_eq_true_iff
  | fin v => exact iff_of_true rfl v.isLt

/-! ## Encoding and decoding are inverse (R50, R51) -/

theorem encode_toNat (i : Instr) : (encode i).toNat = i.opcode.toNat * 2 ^ 32 + i.operand.toNat :=
  opWord_toNat _ _

theorem encode_eq_iff {i : Instr} {w : OpWord} :
    encode i = w ↔ i.opcode = opField w ∧ i.operand = immField w := by
  rw [← opWord_fields w, encode, opWord_inj, opField_opWord, immField_opWord]

/-- R51's numbers say that the code and the operand are quotient and remainder by 2^32. -/
theorem encode_eq_iff_toNat {i : Instr} {w : OpWord} :
    encode i = w ↔ i.opcode.toNat = w.toNat / 2 ^ 32 ∧ i.operand.toNat = w.toNat % 2 ^ 32 := by
  rw [encode_eq_iff, ← BitVec.toNat_inj, ← BitVec.toNat_inj, opField_toNat, immField_toNat]

theorem decodeTail_of_lt {n : Nat} {v : Word} (mk : Word → Instr) (h : v.toNat < 2 ^ (8 * n)) :
    decodeTail n mk v = .ok (mk v) :=
  if_pos ((tailZeros_iff n v).2 h)

theorem decodeTail_of_le {n : Nat} {v : Word} (mk : Word → Instr) (h : 2 ^ (8 * n) ≤ v.toNat) :
    decodeTail n mk v = .invalid .tailHighBits :=
  if_neg fun hz => absurd ((tailZeros_iff n v).1 hz) (Nat.not_lt.2 h)

theorem decodeTail_eq_ok {n : Nat} {v : Word} {mk : Word → Instr} {i : Instr} (h : decodeTail n mk v = .ok i) :
    v.toNat < 2 ^ (8 * n) ∧ mk v = i := by
  rcases Nat.lt_or_ge v.toNat (2 ^ (8 * n)) with hv | hv
  · rw [decodeTail_of_lt mk hv] at h
    exact ⟨hv, Decoded.ok.inj h⟩
  · rw [decodeTail_of_le mk hv] at h
    cases h

theorem decode_encode {i : Instr} (h : i.wf = true) : decode (encode i) = .ok i := by
  unfold decode encode
  rw [opField_opWord, immField_opWord]
  rw [Instr.wf_iff] at h
  cases i with
  | init v => rfl
  | blk v => rfl
  | tail1 v => exact decodeTail_of_lt .tail1 h
  | tail2 v => exact decodeTail_of_lt .tail2 h
  | tail3 v => exact decodeTail_of_lt .tail3 h
  | fin v => rfl

theorem encode_eq_of_op {w : OpWord} {i : Instr} (hop : (opField w).toNat = i.opcode.toNat)
    (himm : i.operand = immField w) : encode i = w :=
  encode_eq_iff.2 ⟨BitVec.eq_of_toNat_eq hop.symm, himm⟩

/-- A word that decodes is the word of what it decodes to, by the decoder's listing. -/
theorem wf_and_encode_of_decode {w : OpWord} {i : Instr} (h : decode w = .ok i) : i.wf = true ∧ encode i = w := by
  unfold decode at h
  split at h
  case h_1 hop => cases h; exact ⟨rfl, encode_eq_of_op hop rfl⟩
  case h_2 hop => cases h; exact ⟨rfl, encode_eq_of_op hop rfl⟩
  case h_3 hop =>
    obtain ⟨hv, rfl⟩ := decodeTail_eq_ok h
    exact ⟨(Instr.wf_iff _).2 hv, encode_eq_of_op hop rfl⟩
  case h_4 hop =>
    obtain ⟨hv, rfl⟩ := decodeTail_eq_ok h
    exact ⟨(Instr.wf_iff _).2 hv, encode_eq_of_op hop rfl⟩
  case h_5 hop =>
    obtain ⟨hv, rfl⟩ := decodeTail_eq_ok h
    exact ⟨(Instr.wf_iff _).2 hv, encode_eq_of_op hop rfl⟩
  case h_6 hop => cases h; exact ⟨rfl, encode_eq_of_op hop rfl⟩
  case h_7 => cases h

theorem decode_eq_ok_iff {w : OpWord} {i : Instr} : decode w = .ok i ↔ i.wf = true ∧ encode i = w :=
  ⟨wf_and_encode_of_decode, fun ⟨hi, he⟩ => he ▸ decode_encode hi⟩

/-- Settles O1: the word as a number from its two fields, the round trips from the decoder's listing. -/
theorem encodeAndDecodeAreInverse : Obligations.EncodeAndDecodeAreInverse := by
  have hnum (c : Nat) (i : Instr) (hc : i.opcode.toNat = c) : (encode i).toNat = c * 2 ^ 32 + i.operand.toNat :=
    hc ▸ encode_toNat i
  refine ⟨fun v => ⟨?_, ?_, fun _ => ?_, fun _ => ?_, fun _ => ?_, ?_⟩, fun i => decode_encode,
    fun w i => wf_and_encode_of_decode⟩
  · exact (hnum 0 (.init v) rfl).trans (Nat.zero_add _)
  · exact hnum 1 (.blk v) rfl
  · exact hnum 2 (.tail1 v) rfl
  · exact hnum 3 (.tail2 v) rfl
  · exact hnum 4 (.tail3 v) rfl
  · exact hnum 5 (.fin v) rfl

/-! ## The decoder's listing and how many words are valid (R50) -/

/-- A word decodes to an operation with a given code exactly when it has the code and its operand fits. -/
theorem decode_opcode_iff (w : OpWord) (j : Instr) : (∃ i, decode w = .ok i ∧ i.opcode = j.opcode) ↔
    opField w = j.opcode ∧ (immField w).toNat < 2 ^ j.operandBits := by
  constructor
  · rintro ⟨i, hd, hij⟩
    obtain ⟨hwf, he⟩ := decode_eq_ok_iff.1 hd
    obtain ⟨hop, himm⟩ := encode_eq_iff.1 he
    rw [← hop, ← himm, ← Instr.operandBits_congr hij]
    exact ⟨hij, (Instr.wf_iff i).1 hwf⟩
  · rintro ⟨hop, hv⟩
    have hwf : (j.withOperand (immField w)).wf = true := by simpa [Instr.wf_iff] using hv
    have he : encode (j.withOperand (immField w)) = w := encode_eq_iff.2 (by simp [hop])
    exact ⟨_, decode_eq_ok_iff.2 ⟨hwf, he⟩, by simp⟩

/-- The numbers of the words of an operation's kind (R51). -/
def Instr.wordNumbers (j : Instr) : Finset Nat :=
  Finset.Ico (j.opcode.toNat * 2 ^ 32) (j.opcode.toNat * 2 ^ 32 + 2 ^ j.operandBits)

theorem Instr.mem_wordNumbers (j : Instr) (w : OpWord) : w.toNat ∈ j.wordNumbers ↔
    opField w = j.opcode ∧ (immField w).toNat < 2 ^ j.operandBits := by
  have hbits := j.two_pow_operandBits_le
  rw [Instr.wordNumbers, Finset.mem_Ico, ← BitVec.toNat_inj, opField_toNat, immField_toNat]
  omega

/-- The numbers of the valid words. -/
theorem decode_isOk_iff (w : OpWord) :
    (∃ i, decode w = .ok i) ↔ w.toNat ∈ operationKinds.biUnion Instr.wordNumbers := by
  simp only [Finset.mem_biUnion, Instr.mem_wordNumbers, ← decode_opcode_iff]
  constructor
  · rintro ⟨i, hd⟩
    exact ⟨i.withOperand 0, i.withOperand_zero_mem, i, hd, (i.withOperand_opcode 0).symm⟩
  · rintro ⟨_, _, i, hd, _⟩
    exact ⟨i, hd⟩

/-- Two kinds share no word, since their codes differ. -/
theorem wordNumbers_disjoint :
    (operationKinds : Set Instr).PairwiseDisjoint Instr.wordNumbers := by
  intro i hi j hj hij
  have hne : i.opcode.toNat ≠ j.opcode.toNat := by
    revert i j
    decide
  have hbi := i.two_pow_operandBits_le
  have hbj := j.two_pow_operandBits_le
  refine Finset.disjoint_left.2 fun n h1 h2 => ?_
  rw [Instr.wordNumbers, Finset.mem_Ico] at h1 h2
  omega

theorem card_wordNumbers (j : Instr) : j.wordNumbers.card = 2 ^ j.operandBits := by
  rw [Instr.wordNumbers, Nat.card_Ico, Nat.add_sub_cancel_left]

theorem image_toNat_valid_words : BitVec.toNat '' {w : OpWord | ∃ i, decode w = .ok i} =
    (operationKinds.biUnion Instr.wordNumbers : Finset Nat) := by
  ext n
  constructor
  · rintro ⟨w, hw, rfl⟩
    exact (decode_isOk_iff w).1 hw
  · intro hn
    have hlt : n < 2 ^ 35 := by
      obtain ⟨j, -, hj⟩ := Finset.mem_biUnion.1 hn
      have hbits := j.two_pow_operandBits_le
      have hop := j.opcode_le
      rw [Instr.wordNumbers, Finset.mem_Ico] at hj
      omega
    have hw : (BitVec.ofNat 35 n).toNat = n := (BitVec.toNat_ofNat n 35).trans (Nat.mod_eq_of_lt hlt)
    exact ⟨BitVec.ofNat 35 n, (decode_isOk_iff _).2 (by rwa [hw]), hw⟩

/-- R50's count, kind by kind. -/
theorem card_valid_words :
    Nat.card (Subtype fun w : OpWord => ∃ i, decode w = .ok i) = 2 ^ 32 * 3 + 2 ^ 8 + 2 ^ 16 + 2 ^ 24 := by
  calc Nat.card (Subtype fun w : OpWord => ∃ i, decode w = .ok i)
      = {w : OpWord | ∃ i, decode w = .ok i}.ncard := Nat.card_coe_set_eq _
    _ = (BitVec.toNat '' {w : OpWord | ∃ i, decode w = .ok i}).ncard :=
        (Set.ncard_image_of_injective _ fun _ _ => BitVec.eq_of_toNat_eq).symm
    _ = ∑ j ∈ operationKinds, 2 ^ j.operandBits := by
        rw [image_toNat_valid_words, Set.ncard_coe_finset, Finset.card_biUnion wordNumbers_disjoint]
        exact Finset.sum_congr rfl fun j _ => card_wordNumbers j
    _ = 2 ^ 32 * 3 + 2 ^ 8 + 2 ^ 16 + 2 ^ 24 := by decide

theorem decode_eq_ok_of_toNat {w : OpWord} {i : Instr} (hop : w.toNat / 2 ^ 32 = i.opcode.toNat)
    (himm : i.operand.toNat = w.toNat % 2 ^ 32) (hwf : i.wf = true) : decode w = .ok i :=
  decode_eq_ok_iff.2 ⟨hwf, encode_eq_iff_toNat.2 ⟨hop.symm, himm⟩⟩

/-- A word whose operand bits do not fit its code, or whose code is reserved, does not decode. -/
theorem exists_invalid {w : OpWord}
    (h : ∀ i : Instr, i.wf = true → i.opcode.toNat = w.toNat / 2 ^ 32 → i.operand.toNat ≠ w.toNat % 2 ^ 32) :
    ∃ why, decode w = .invalid why := by
  cases hd : decode w with
  | ok i =>
    obtain ⟨hwf, he⟩ := decode_eq_ok_iff.1 hd
    obtain ⟨hop, himm⟩ := encode_eq_iff_toNat.1 he
    exact absurd himm (h i hwf hop)
  | invalid why => exact ⟨why, rfl⟩

end Sys2Proof

namespace Sys2Proof.Machine

theorem execWord_of_invalid {w : OpWord} {why : Invalid} (s : State) (h : decode w = .invalid why) :
    execWord w s = .refused .invalidOperationWord := by
  rw [execWord, h]

/-- Settles O2: each line of the listing by the inverse encoding, the count by the kinds of operations. -/
theorem decoderFollowsItsListing : Obligations.DecoderFollowsItsListing := by
  refine ⟨fun w op imm hop himm => ⟨fun h => ?_, fun h => ?_, fun ⟨h, hv⟩ => ?_, fun ⟨h, hv⟩ => ?_,
    fun ⟨h, hv⟩ => ?_, fun h => ?_, fun h => exists_invalid fun i hwf hi hv => ?_⟩, card_valid_words,
    fun w why s => execWord_of_invalid s⟩
  · exact decode_eq_ok_of_toNat (hop.symm.trans h) himm rfl
  · exact decode_eq_ok_of_toNat (hop.symm.trans h) himm rfl
  · exact decode_eq_ok_of_toNat (hop.symm.trans h) himm (decide_eq_true (by omega))
  · exact decode_eq_ok_of_toNat (hop.symm.trans h) himm (decide_eq_true (by omega))
  · exact decode_eq_ok_of_toNat (hop.symm.trans h) himm (decide_eq_true (by omega))
  · exact decode_eq_ok_of_toNat (hop.symm.trans h) himm rfl
  · rw [← hop] at hi
    rw [← himm] at hv
    rw [Instr.wf_iff, hv] at hwf
    cases i <;> simp only [Instr.opcode, Instr.operandBits, BitVec.ofNat_eq_ofNat, BitVec.toNat_ofNat] at hi hwf
    all_goals omega

/-! ## TAILn words with high bits, the reserved codes, and what the sequencer issues (R48, R49) -/

/-- A TAILn word decodes by the check of its high bits (R50, lines op = 2, 3, 4). -/
theorem decode_eq_decodeTail {n : Nat} {w : OpWord} (h1 : 1 ≤ n) (h3 : n ≤ 3) (hop : w.toNat / 2 ^ 32 = 1 + n) :
    ∃ mk, decode w = decodeTail n mk (immField w) := by
  rw [← opField_toNat] at hop
  obtain rfl | rfl | rfl : n = 1 ∨ n = 2 ∨ n = 3 := by omega
  · exact ⟨.tail1, by simp only [decode, hop]⟩
  · exact ⟨.tail2, by simp only [decode, hop]⟩
  · exact ⟨.tail3, by simp only [decode, hop]⟩

theorem decode_of_reserved {w : OpWord} (h : 6 ≤ w.toNat / 2 ^ 32) : decode w = .invalid .reservedOp := by
  rw [← opField_toNat] at h
  have h67 : (opField w).toNat = 6 ∨ (opField w).toNat = 7 := by omega
  rcases h67 with hop | hop <;> simp only [decode, hop]

/-- The sequencer's words are those of well-formed operations: the bytes of a tail fit in their n bytes. -/
theorem decode_nextWord {s : State} {w : OpWord} (h : nextWord s = .word w) :
    ∃ i, decode w = .ok i ∧ i.wf = true := by
  suffices hw : ∃ i : Instr, i.wf = true ∧ encode i = w by
    obtain ⟨i, hwf, he⟩ := hw
    exact ⟨i, decode_eq_ok_iff.2 ⟨hwf, he⟩, hwf⟩
  rw [← opWord_fields w] at h ⊢
  rcases (nextWord_eq_word s _ _).1 h with ⟨hop, _⟩ | ⟨hop, _⟩ | ⟨hop, _, _, hm⟩ | ⟨hop, _, _, hm⟩ | ⟨hop, _, _, hm⟩ |
    ⟨hop, _⟩ <;> rw [hop]
  · exact ⟨.init _, rfl, rfl⟩
  · exact ⟨.fin _, rfl, rfl⟩
  · exact ⟨.tail1 _, decide_eq_true (Memory.memRead_lt hm), rfl⟩
  · exact ⟨.tail2 _, decide_eq_true (Memory.memRead_lt hm), rfl⟩
  · exact ⟨.tail3 _, decide_eq_true (Memory.memRead_lt hm), rfl⟩
  · exact ⟨.blk _, rfl, rfl⟩

/-- Settles O3: the two reasons by the decoder's listing, the sequencer's words by what it selects. -/
theorem sequencerIssuesOperationWordsOnly : Obligations.SequencerIssuesOperationWordsOnly := by
  refine ⟨fun n w h1 h3 hop hv => ?_, fun w => decode_of_reserved, fun s w => decode_nextWord⟩
  obtain ⟨mk, hd⟩ := decode_eq_decodeTail h1 h3 hop
  rw [hd]
  exact decodeTail_of_le mk (by rwa [immField_toNat])

/-! ## The table of masks (R46) -/

/-- The row of an operation's kind: its mask keeps the code and the bits above the operand bits. -/
def rowOf (j : Instr) : OpRow :=
  ⟨j.mnemonic, opWord 7 (BitVec.allOnes 32 <<< j.operandBits), opWord j.opcode 0⟩

theorem opWord_and (a c : BitVec 3) (b d : Word) : opWord a b &&& opWord c d = opWord (a &&& c) (b &&& d) :=
  BitVec.and_append

/-- A word has no bit from bit k on exactly when it is below 2^k. -/
theorem and_allOnes_shiftLeft_eq_zero_iff (v : Word) (k : Nat) :
    v &&& (BitVec.allOnes 32 <<< k) = 0 ↔ v.toNat < 2 ^ k := by
  have hdiv : v.toNat / 2 ^ k * 2 ^ k < 2 ^ 32 := Nat.lt_of_le_of_lt (Nat.div_mul_le_self _ _) v.isLt
  rw [← BitVec.shiftLeft_ushiftRight, ← BitVec.toNat_inj, BitVec.toNat_shiftLeft, BitVec.toNat_ushiftRight,
    Nat.shiftRight_eq_div_pow, Nat.shiftLeft_eq, Nat.mod_eq_of_lt hdiv]
  simp [Nat.div_eq_zero_iff]

theorem rowOf_selects_iff (j : Instr) (w : OpWord) : (rowOf j).selects w = true ↔
    opField w = j.opcode ∧ (immField w).toNat < 2 ^ j.operandBits := by
  have hop : opField w &&& 7 = opField w := BitVec.and_allOnes
  rw [OpRow.selects, rowOf, beq_iff_eq, ← opWord_fields w, opWord_and, opWord_inj, opField_opWord, immField_opWord,
    hop, and_allOnes_shiftLeft_eq_zero_iff]

theorem opcodeTable_eq :
    opcodeTable = [.init 0, .blk 0, .tail1 0, .tail2 0, .tail3 0, .fin 0].map rowOf := by
  decide

/-- Settles O4: the table has the row of each kind of operation, and a row selects by code and operand bits. -/
theorem opcodeTableAgreesWithDecoder : Obligations.OpcodeTableAgreesWithDecoder := by
  refine ⟨fun imm => ⟨rfl, rfl, rfl, rfl, rfl, rfl⟩, rfl, fun r hr w => ?_⟩
  rw [opcodeTable_eq, List.mem_map] at hr
  obtain ⟨j, -, rfl⟩ := hr
  have hmn (i : Instr) : i.mnemonic = (rowOf j).mnemonic ↔ i.opcode = j.opcode := Instr.mnemonic_eq_iff i j
  simp only [hmn]
  exact (rowOf_selects_iff j w).trans (decode_opcode_iff w j).symm

/-! ## Words written out, and TAILn operands that no word holds -/

/-- Settles O5: the decoder evaluated on each of the eight words. -/
theorem writtenOutWordsDecode : Obligations.WrittenOutWordsDecode := by
  unfold Obligations.WrittenOutWordsDecode
  decide

theorem tailMix_of_le {n : Nat} {v : Word} (s : State) (h : 2 ^ (8 * n) ≤ v.toNat) :
    tailMix n v s = .refused .invalidOperand := by
  rcases tailMix_cases n v s with ⟨hlt, _⟩ | ⟨_, e⟩
  · exact absurd hlt (Nat.not_lt.2 h)
  · exact e

/-- Settles O21: each TAILn is the shared action with its n. -/
theorem tailOperandAboveItsBytesIsRefused : Obligations.TailOperandAboveItsBytesIsRefused :=
  fun _ s => ⟨fun h => tailMix_of_le (n := 1) s h, fun h => tailMix_of_le (n := 2) s h,
    fun h => tailMix_of_le (n := 3) s h⟩

/-! ## An operation from its mnemonic and a number (R53) -/

theorem numberBelow_eq_some {bound v : Nat} {t : List Char} :
    numberBelow bound t = some v ↔ number t = some v ∧ v < bound := by
  unfold numberBelow
  cases number t with
  | none => simp
  | some u =>
    by_cases hu : u < bound
    · simp only [hu, if_true, Option.some.injEq]
      exact ⟨fun h => ⟨h, h ▸ hu⟩, And.left⟩
    · simp only [hu, if_false, Option.some.injEq]
      exact iff_of_false (by simp) fun ⟨h, hv⟩ => hu (h ▸ hv)

theorem operandOf_eq_some {bits : Nat} {mk : Word → Instr} {arg : List Char} {i : Instr} :
    operandOf bits mk arg = some i ↔ ∃ v, number arg = some v ∧ v < 2 ^ bits ∧ mk (BitVec.ofNat 32 v) = i := by
  simp only [operandOf, Option.map_eq_some_iff, numberBelow_eq_some, and_assoc]

theorem operationOf_mnemonicChars (j : Instr) (arg : List Char) :
    operationOf (mnemonicChars j) arg = operandOf j.operandBits j.withOperand arg := by
  cases j <;> rfl

theorem mnemonicChars_withOperand (j : Instr) (v : Word) : mnemonicChars (j.withOperand v) = mnemonicChars j := by
  cases j <;> rfl

/-- Only the six mnemonics name an operation. -/
theorem exists_mnemonicChars_of_operationOf {name arg : List Char} {i : Instr} (h : operationOf name arg = some i) :
    ∃ j, name = mnemonicChars j := by
  unfold operationOf at h
  split at h
  · exact ⟨.init 0, rfl⟩
  · exact ⟨.blk 0, rfl⟩
  · exact ⟨.tail1 0, rfl⟩
  · exact ⟨.tail2 0, rfl⟩
  · exact ⟨.tail3 0, rfl⟩
  · exact ⟨.fin 0, rfl⟩
  · cases h

/-- A mnemonic and a number make an operation exactly when it is well-formed: the number fits its operand bits. -/
theorem operationOf_eq_some_iff {name arg : List Char} {i : Instr} : operationOf name arg = some i ↔
    name = mnemonicChars i ∧ number arg = some i.operand.toNat ∧ i.wf = true := by
  constructor
  · intro h
    obtain ⟨j, rfl⟩ := exists_mnemonicChars_of_operationOf h
    rw [operationOf_mnemonicChars] at h
    obtain ⟨v, hv, hlt, rfl⟩ := operandOf_eq_some.1 h
    have hnat : (BitVec.ofNat 32 v).toNat = v :=
      (BitVec.toNat_ofNat v 32).trans (Nat.mod_eq_of_lt (Nat.lt_of_lt_of_le hlt j.two_pow_operandBits_le))
    refine ⟨(mnemonicChars_withOperand j _).symm, ?_, ?_⟩
    · rw [Instr.withOperand_operand, hnat, hv]
    · rwa [Instr.wf_iff, Instr.withOperand_operand, Instr.withOperand_operandBits, hnat]
  · rintro ⟨rfl, hnum, hwf⟩
    rw [operationOf_mnemonicChars, operandOf_eq_some]
    exact ⟨_, hnum, (Instr.wf_iff i).1 hwf, by rw [BitVec.ofNat_toNat, BitVec.setWidth_eq, Instr.withOperand_self]⟩

/-! ## Hexadecimal numbers as they are written -/

/-- A character that ends no word of a line and starts neither a comment nor a string. -/
def isPlain (c : Char) : Bool := !isBlank c && c != ';' && c != '"' && c != ','

/-- Every character of a text is plain. -/
abbrev Plain (t : List Char) : Prop := ∀ c ∈ t, isPlain c = true

theorem plain_of_all {t : List Char} (h : t.all isPlain = true) : Plain t := List.all_eq_true.1 h

theorem isBlank_of_isPlain {c : Char} (h : isPlain c = true) : isBlank c = false := by
  simp only [isPlain, Bool.and_eq_true, Bool.not_eq_true'] at h
  exact h.1.1.1

theorem Plain.not_blank {t : List Char} (h : Plain t) : ∀ c ∈ t, isBlank c = false :=
  fun c hc => isBlank_of_isPlain (h c hc)

theorem Plain.notMem {t : List Char} {c : Char} (h : Plain t) (hc : isPlain c = false) : c ∉ t :=
  fun hm => absurd ((h c hm).symm.trans hc) (by decide)

/-- The sixteen digits are plain and have their values. -/
theorem hexChar_spec : ∀ d < 16, digitVal (hexChar d) = some d ∧ isPlain (hexChar d) = true := by
  decide

theorem hexDigits_plain (n v : Nat) : Plain (hexDigits n v) := by
  induction n generalizing v with
  | zero => exact fun _ h => nomatch h
  | succ n ih =>
    intro c hc
    rw [hexDigits, List.mem_append, List.mem_singleton] at hc
    rcases hc with hc | rfl
    · exact ih _ c hc
    · exact (hexChar_spec _ (Nat.mod_lt v (by decide))).2

/-- Reading the digits of a number after those of `acc` puts it behind `acc`. -/
theorem digitsFrom_hexDigits {n v : Nat} (acc : Nat) (cs : List Char) (hv : v < 16 ^ n) :
    digitsFrom 16 acc (hexDigits n v ++ cs) = digitsFrom 16 (acc * 16 ^ n + v) cs := by
  induction n generalizing v cs with
  | zero =>
    obtain rfl : v = 0 := by omega
    simp [hexDigits]
  | succ n ih =>
    have hd : v % 16 < 16 := Nat.mod_lt v (by decide)
    have hdiv : v / 16 < 16 ^ n := by omega
    have hacc : (acc * 16 ^ n + v / 16) * 16 + v % 16 = acc * 16 ^ (n + 1) + v := by
      rw [Nat.add_mul, Nat.mul_assoc, ← Nat.pow_succ, Nat.add_assoc, Nat.div_add_mod']
    rw [hexDigits, List.append_assoc, ih _ hdiv, List.singleton_append, digitsFrom, (hexChar_spec _ hd).1]
    simp only [hd, if_true, hacc]

/-- A number as it is written: the prefix and `n` hexadecimal digits. -/
def hexNumber (n v : Nat) : List Char := '0' :: 'x' :: hexDigits n v

theorem hexNumber_ne_nil (n v : Nat) : hexNumber n v ≠ [] := List.cons_ne_nil _ _

theorem hexNumber_plain (n v : Nat) : Plain (hexNumber n v) := by
  intro c hc
  rcases List.mem_cons.1 hc with rfl | hc
  · decide
  · rcases List.mem_cons.1 hc with rfl | hc
    · decide
    · exact hexDigits_plain n v c hc

theorem number_hex {ds : List Char} (h : ds ≠ []) : number ('0' :: 'x' :: ds) = digitsFrom 16 0 ds := by
  cases ds with
  | nil => exact absurd rfl h
  | cons d ds => rfl

/-- A number that fits in its digits reads back. -/
theorem number_hexNumber {n v : Nat} (hv : v < 16 ^ (n + 1)) : number (hexNumber (n + 1) v) = some v := by
  have hread := digitsFrom_hexDigits 0 [] hv
  rw [List.append_nil, Nat.zero_mul, Nat.zero_add] at hread
  exact (number_hex (by simp [hexDigits])).trans hread

/-! ## The words of a line -/

theorem wordsFrom_append {sep : Char → Bool} {w : List Char} (cur t : List Char) (h : ∀ c ∈ w, sep c = false) :
    wordsFrom sep cur (w ++ t) = wordsFrom sep (w.reverse ++ cur) t := by
  induction w generalizing cur with
  | nil => rfl
  | cons c w ih =>
    have hc : sep c = false := h c List.mem_cons_self
    rw [List.cons_append, wordsFrom, if_neg (by simp [hc]), ih _ fun d hd => h d (List.mem_cons_of_mem c hd)]
    simp

theorem wordsFrom_space (cur t : List Char) :
    wordsFrom isBlank cur (' ' :: t) = wordsFrom isBlank cur [] ++ wordsFrom isBlank [] t := by
  cases cur <;> rfl

theorem wordsFrom_nil {cur : List Char} (sep : Char → Bool) (h : cur ≠ []) :
    wordsFrom sep cur [] = [cur.reverse] := by
  simp [wordsFrom, h]

/-- Words written each after a space are read back. -/
theorem wordsFrom_spaced {ws : List (List Char)} (cur : List Char)
    (h : ∀ w ∈ ws, w ≠ [] ∧ Plain w) :
    wordsFrom isBlank cur (ws.flatMap fun w => ' ' :: w) = wordsFrom isBlank cur [] ++ ws := by
  induction ws generalizing cur with
  | nil => simp
  | cons w ws ih =>
    obtain ⟨hw, hplain⟩ := h w List.mem_cons_self
    have hone : wordsFrom isBlank w.reverse [] = [w] := by
      rw [wordsFrom_nil isBlank (by simpa using hw), List.reverse_reverse]
    rw [List.flatMap_cons, List.cons_append, wordsFrom_space, wordsFrom_append _ _ hplain.not_blank, List.append_nil,
      ih _ fun u hu => h u (List.mem_cons_of_mem w hu), hone, List.singleton_append]

theorem wordsFrom_spaced_one {w : List Char} (hw : w ≠ []) (h : Plain w) :
    wordsFrom isBlank [] (' ' :: w) = [w] := by
  have hone : ∀ u ∈ [w], u ≠ [] ∧ Plain u := by
    intro u hu
    rw [List.mem_singleton.1 hu]
    exact ⟨hw, h⟩
  simpa [wordsFrom] using wordsFrom_spaced [] hone

theorem wordsFrom_dropWhile (sep : Char → Bool) (t : List Char) :
    wordsFrom sep [] (t.dropWhile sep) = wordsFrom sep [] t := by
  induction t with
  | nil => rfl
  | cons c t ih =>
    cases hc : sep c with
    | true => rw [List.dropWhile_cons_of_pos hc, ih, wordsFrom, if_pos hc]; rfl
    | false => rw [List.dropWhile_cons_of_neg (by simp [hc])]

theorem takeWhile_until {p : Char → Bool} {l : List Char} {c : Char} (r : List Char) (hl : ∀ x ∈ l, p x = true)
    (hc : p c = false) : (l ++ c :: r).takeWhile p = l := by
  rw [List.takeWhile_append_of_pos hl, List.takeWhile_cons_of_neg (by simp [hc]), List.append_nil]

theorem dropWhile_until {p : Char → Bool} {l : List Char} {c : Char} (r : List Char) (hl : ∀ x ∈ l, p x = true)
    (hc : p c = false) : (l ++ c :: r).dropWhile p = c :: r := by
  rw [List.dropWhile_append_of_pos hl, List.dropWhile_cons_of_neg (by simp [hc])]

/-! ## Comments -/

theorem uncomment_of_no_semicolon {t : List Char} (quoted : Bool) (h : ';' ∉ t) : uncomment quoted t = t := by
  induction t generalizing quoted with
  | nil => rfl
  | cons c t ih =>
    rw [List.mem_cons, not_or] at h
    obtain ⟨hc, ht⟩ := h
    rw [uncomment, if_neg (by simp [Ne.symm hc]), ih _ ht]

theorem uncomment_append_comment {t : List Char} (note : List Char) (hq : '"' ∉ t) (hs : ';' ∉ t) :
    uncomment false (t ++ ';' :: note) = t := by
  induction t with
  | nil => rfl
  | cons c t ih =>
    rw [List.mem_cons, not_or] at hq hs
    obtain ⟨hcq, hq⟩ := hq
    obtain ⟨hcs, hs⟩ := hs
    rw [List.cons_append, uncomment, if_neg (by simp [Ne.symm hcs]), if_neg (by simp [Ne.symm hcq]), ih hq hs]

/-- A line's meaning is that of its text without the comment. -/
theorem assembleLine_congr {l l' : List Char} (h : uncomment false l = uncomment false l') :
    assembleLine l = assembleLine l' := by
  rw [assembleLine, assembleLine, h]

/-! ## A line that begins with a name -/

/-- What a line `name rest` without a comment is cut into. -/
theorem line_parts {name rest : List Char} (hn : name ≠ []) (hp : Plain name) (hs : ';' ∉ rest) :
    (uncomment false (name ++ ' ' :: rest)).dropWhile isBlank = name ++ ' ' :: rest ∧
    (name ++ ' ' :: rest).takeWhile (fun c => !isBlank c) = name ∧
    (name ++ ' ' :: rest).dropWhile (fun c => !isBlank c) = ' ' :: rest := by
  have hword : ∀ c ∈ name, (!isBlank c) = true := fun c hc => by rw [hp.not_blank c hc]; rfl
  have hsemi : ';' ∉ name ++ ' ' :: rest := by
    simp only [List.mem_append, List.mem_cons, not_or]
    exact ⟨hp.notMem rfl, by decide, hs⟩
  refine ⟨?_, takeWhile_until rest hword rfl, dropWhile_until rest hword rfl⟩
  rw [uncomment_of_no_semicolon false hsemi]
  cases name with
  | nil => exact absurd rfl hn
  | cons c name =>
    rw [List.cons_append, List.dropWhile_cons_of_neg (by simp [hp.not_blank c List.mem_cons_self])]

theorem assembleLine_operation {name arg : List Char} (hn : name ≠ []) (hp : Plain name)
    (hh : name ≠ ['H', 'A', 'S', 'H', '3', '2']) (ha : arg ≠ []) (hpa : Plain arg) :
    assembleLine (name ++ ' ' :: arg) = (operationOf name arg).map fun i => [i] := by
  obtain ⟨hline, hname, hrest⟩ := line_parts hn hp (hpa.notMem rfl)
  simp only [assembleLine, hline, hname, hrest, List.isEmpty_iff, hn, hh, if_false, wordsFrom_spaced_one ha hpa]

theorem assembleLine_hash {rest : List Char} (hs : ';' ∉ rest) :
    assembleLine (['H', 'A', 'S', 'H', '3', '2'] ++ ' ' :: rest) = hashLine (' ' :: rest) := by
  obtain ⟨hline, hname, hrest⟩ :=
    line_parts (name := ['H', 'A', 'S', 'H', '3', '2']) (List.cons_ne_nil _ _) (plain_of_all (by decide)) hs
  simp only [assembleLine, hline, hname, hrest, List.isEmpty_cons, Bool.false_eq_true, if_false, if_true]

theorem mnemonicChars_spec (i : Instr) : mnemonicChars i ≠ [] ∧ Plain (mnemonicChars i) ∧
    mnemonicChars i ≠ ['H', 'A', 'S', 'H', '3', '2'] := by
  have kinds : ∀ k ∈ operationKinds, mnemonicChars k ≠ [] ∧ (mnemonicChars k).all isPlain = true ∧
      mnemonicChars k ≠ ['H', 'A', 'S', 'H', '3', '2'] := by
    decide
  have hkind := kinds _ i.withOperand_zero_mem
  rw [mnemonicChars_withOperand] at hkind
  exact hkind.imp_right (And.imp_left plain_of_all)

theorem printOp_eq (i : Instr) : printOp i = mnemonicChars i ++ ' ' :: hexNumber 8 i.operand.toNat := by
  simp [printOp, hexNumber]

theorem assembleLine_printOp {i : Instr} (h : i.wf = true) : assembleLine (printOp i) = some [i] := by
  obtain ⟨hne, hplain, hhash⟩ := mnemonicChars_spec i
  have hop : operationOf (mnemonicChars i) (hexNumber 8 i.operand.toNat) = some i :=
    operationOf_eq_some_iff.2 ⟨rfl, number_hexNumber i.operand.isLt, h⟩
  rw [printOp_eq, assembleLine_operation hne hplain hhash (hexNumber_ne_nil _ _) (hexNumber_plain _ _), hop]
  rfl

/-- Settles O6: the printed operand reads back, and a mnemonic takes the operands that fit. -/
theorem writtenOperationsAssemble : Obligations.WrittenOperationsAssemble := by
  refine ⟨fun i => assembleLine_printOp, fun name arg i => operationOf_eq_some_iff.1,
    fun name arg i hwf hname hnum => operationOf_eq_some_iff.2 ⟨hname, hnum, hwf⟩, fun line note hq hs => ?_⟩
  exact assembleLine_congr
    ((uncomment_append_comment note hq hs).trans (uncomment_of_no_semicolon false hs).symm)

/-! ## HASH32 (R54) -/

theorem messageOf_of_no_quote {t : List Char} (h : '"' ∉ t) :
    messageOf t = (wordsFrom isBlank [] t).mapM fun w => (numberBelow 256 w).map (BitVec.ofNat 8) := by
  unfold messageOf
  split
  next cs hd => exact absurd ((List.dropWhile_sublist isBlank).subset (hd ▸ List.mem_cons_self)) h
  next => rw [wordsFrom_dropWhile]

/-- The bytes of a HASH32 line as they are written. -/
def printBytes (data : List Byte) : List Char := data.flatMap fun b => ' ' :: hexNumber 2 b.toNat

theorem printBytes_eq_spaced (data : List Byte) :
    printBytes data = (data.map fun b => hexNumber 2 b.toNat).flatMap fun w => ' ' :: w := by
  rw [List.flatMap_map]
  rfl

theorem notMem_printBytes {c : Char} (data : List Byte) (hp : isPlain c = false) (hb : c ≠ ' ') :
    c ∉ printBytes data := by
  intro hc
  obtain ⟨b, -, hc⟩ := List.mem_flatMap.1 hc
  rcases List.mem_cons.1 hc with h | h
  · exact hb h
  · exact (hexNumber_plain 2 b.toNat).notMem hp h

theorem byteOf_hexNumber (b : Byte) :
    (numberBelow 256 (hexNumber 2 b.toNat)).map (BitVec.ofNat 8) = some b := by
  rw [numberBelow_eq_some.2 ⟨number_hexNumber b.isLt, b.isLt⟩]
  simp

theorem messageOf_printBytes (data : List Byte) : messageOf (printBytes data) = some data := by
  have hwords : ∀ w ∈ data.map fun b => hexNumber 2 b.toNat, w ≠ [] ∧ Plain w := by
    intro w hw
    obtain ⟨b, -, rfl⟩ := List.mem_map.1 hw
    exact ⟨hexNumber_ne_nil _ _, hexNumber_plain _ _⟩
  rw [messageOf_of_no_quote (notMem_printBytes data rfl (by decide)), printBytes_eq_spaced, wordsFrom_spaced [] hwords]
  simp only [wordsFrom, List.isEmpty_nil, if_true, List.nil_append, List.mapM_map, Function.comp_def, byteOf_hexNumber]
  exact (List.mapM_pure (m := Option)).trans (congrArg some data.map_id)

/-- The line of a seed and bytes that can be read. -/
theorem hashLine_of_parts {t seed body : List Char} {s : Nat} {data : List Byte}
    (hseed : wordsFrom isBlank [] (t.takeWhile (· != ',')) = [seed]) (hbody : t.dropWhile (· != ',') = ',' :: body)
    (hs : numberBelow (2 ^ 32) seed = some s) (hd : messageOf body = some data) :
    hashLine t = if data.length < 2 ^ 32 then some (stream data (BitVec.ofNat 32 s)) else none := by
  simp only [hashLine, hseed, hbody, hs, hd]

theorem printHash_eq (data : List Byte) (seed : Word) : printHash data seed =
    ['H', 'A', 'S', 'H', '3', '2'] ++ ' ' :: (hexNumber 8 seed.toNat ++ ',' :: printBytes data) := by
  simp [printHash, printBytes, hexNumber]

theorem assembleLine_printHash (data : List Byte) (seed : Word) : assembleLine (printHash data seed) =
    if data.length < 2 ^ 32 then some (stream data seed) else none := by
  have hplain := hexNumber_plain 8 seed.toNat
  have hsemi : ';' ∉ hexNumber 8 seed.toNat ++ ',' :: printBytes data := by
    simp only [List.mem_append, List.mem_cons, not_or]
    exact ⟨hplain.notMem rfl, by decide, notMem_printBytes data rfl (by decide)⟩
  have hcomma : ∀ c ∈ ' ' :: hexNumber 8 seed.toNat, (c != ',') = true := by
    intro c hc
    rcases List.mem_cons.1 hc with rfl | hc
    · decide
    · exact bne_iff_ne.2 fun h => hplain.notMem (c := ',') rfl (h ▸ hc)
  have hseed : wordsFrom isBlank [] ((' ' :: hexNumber 8 seed.toNat ++ ',' :: printBytes data).takeWhile (· != ',')) =
      [hexNumber 8 seed.toNat] := by
    rw [takeWhile_until _ hcomma rfl, wordsFrom_spaced_one (hexNumber_ne_nil _ _) hplain]
  have hdrop := dropWhile_until (p := (· != ',')) (c := ',') (printBytes data) hcomma rfl
  have hs : numberBelow (2 ^ 32) (hexNumber 8 seed.toNat) = some seed.toNat :=
    numberBelow_eq_some.2 ⟨number_hexNumber seed.isLt, seed.isLt⟩
  rw [printHash_eq, assembleLine_hash hsemi, ← List.cons_append,
    hashLine_of_parts hseed hdrop hs (messageOf_printBytes data), BitVec.ofNat_toNat, BitVec.setWidth_eq]

/-- Settles O7: the printed seed and bytes read back, and the bound on their number is the line's own. -/
theorem hash32LineExpandsToTheStream : Obligations.Hash32LineExpandsToTheStream := by
  intro data seed
  rw [assembleLine_printHash]
  exact ⟨fun h => if_pos h, fun h => if_neg (Nat.not_lt.2 h)⟩

end Sys2Proof.Machine
end

section
/-! PROOFS. The datapath (40_datapath_arith.md): addition, multiplication and shifts as numbers, and that every step of
MIXK, ROUND and FMIX (multiply by an odd constant, rotate, XOR with a shift, XOR or add a constant) is a bijection. -/

namespace Sys2Proof.Machine

/-! ## Addition, multiplication and shifts as numbers (R61, R62, R64) -/

theorem add32_toNat (a b : Word) : (add32 a b).toNat = (a.toNat + b.toNat) % 2 ^ 32 := BitVec.toNat_add a b

theorem mul32_toNat (a b : Word) : (mul32 a b).toNat = a.toNat * b.toNat % 2 ^ 32 := BitVec.toNat_mul a b

theorem shr32_toNat (a : Word) (s : Nat) : (shr32 a s).toNat = a.toNat / 2 ^ s := by
  rw [shr32, BitVec.toNat_ushiftRight, Nat.shiftRight_eq_div_pow]

theorem shl32_toNat (a : Word) (s : Nat) : (shl32 a s).toNat = a.toNat * 2 ^ s % 2 ^ 32 := by
  rw [shl32, BitVec.toNat_shiftLeft, Nat.shiftLeft_eq]

/-- Settles O8: each operation as a number; the shifts hold for every s. -/
theorem arithmeticWrapsAt32Bits : Obligations.ArithmeticWrapsAt32Bits :=
  fun a b => ⟨add32_toNat a b, mul32_toNat a b, fun s _ => ⟨shr32_toNat a s, shl32_toNat a s⟩⟩

/-! ## The rotate (R65) -/

theorem rotl32_eq_rotateLeft (x : Word) {r : Nat} (hr : r < 32) : rotl32 x r = x.rotateLeft r := by
  rw [BitVec.rotateLeft_def, Nat.mod_eq_of_lt hr, rotl32, shl32, shr32]

/-- Bit i of x becomes bit (i + r) mod 32: a bit that leaves at the top comes back at the bottom. -/
theorem rotl32_getLsbD (x : Word) {r i : Nat} (hr : r < 32) (hi : i < 32) :
    (rotl32 x r).getLsbD ((i + r) % 32) = x.getLsbD i := by
  rw [rotl32_eq_rotateLeft x hr, BitVec.getLsbD_rotateLeft, Nat.mod_eq_of_lt hr]
  by_cases h : i + r < 32
  · have hpos : i + r - r = i := by omega
    simp [Nat.mod_eq_of_lt h, h, hpos]
  · have hmod : (i + r) % 32 = i + r - 32 := by omega
    have hpos : 32 - r + (i + r - 32) = i := by omega
    have hin : i + r - 32 < r := by omega
    simp [hmod, hin, hpos]

/-- Settles O9: the formula is the definition, and the bit moves as in the library's rotate. -/
theorem rotateMovesEveryBit : Obligations.RotateMovesEveryBit :=
  fun x _ _ hr => ⟨rfl, fun _ hi => rotl32_getLsbD x (Nat.lt_succ_of_le hr) hi⟩

/-! ## Each step of the mixers is a bijection -/

/-- There are finitely many words. -/
theorem bijective_of_injective {f : Word → Word} (hf : f.Injective) : f.Bijective :=
  Finite.injective_iff_bijective.1 hf

/-- A rotation loses no bit. -/
theorem rotl32_bijective {r : Nat} (hr : r < 32) : Function.Bijective fun x => rotl32 x r := by
  refine bijective_of_injective fun x y (h : rotl32 x r = rotl32 y r) => BitVec.eq_of_getLsbD_eq fun i hi => ?_
  rw [← rotl32_getLsbD x hr hi, h, rotl32_getLsbD y hr hi]

/-- An odd factor can be cancelled modulo 2^32. -/
theorem mul32_bijective {c : Word} (hc : Odd c.toNat) : Function.Bijective fun x => mul32 x c := by
  refine bijective_of_injective fun x y (h : mul32 x c = mul32 y c) => ?_
  have hmul : x.toNat * c.toNat ≡ y.toNat * c.toNat [MOD 2 ^ 32] := by
    rw [Nat.ModEq, ← mul32_toNat, ← mul32_toNat, h]
  have hcop : Nat.Coprime (2 ^ 32) c.toNat := (Nat.coprime_two_left.2 hc).pow_left 32
  exact BitVec.eq_of_toNat_eq ((hmul.cancel_right_of_coprime hcop).eq_of_lt_of_lt x.isLt y.isLt)

theorem add32_bijective (c : Word) : Function.Bijective fun x => add32 x c :=
  (Equiv.addRight c).bijective

theorem xor_bijective (m : Word) : Function.Bijective fun x : Word => x ^^^ m :=
  bijective_of_injective fun _ _ h => (BitVec.xor_left_inj m).1 h

/-- Only 0 is its own right shift by at least one place. -/
theorem eq_zero_of_shr32_eq_self {x : Word} {s : Nat} (hs : 0 < s) (h : shr32 x s = x) : x = 0 := by
  have hdiv : x.toNat / 2 ^ s = x.toNat := by rw [← shr32_toNat, h]
  by_contra hne
  have hpos : 0 < x.toNat := Nat.pos_of_ne_zero fun h0 => hne (BitVec.eq_of_toNat_eq h0)
  exact absurd hdiv (Nat.div_lt_self hpos (Nat.one_lt_two_pow hs.ne')).ne

/-- The XOR of two words with one image is its own shift, so it is 0. -/
theorem xorShr32_bijective {s : Nat} (hs : 0 < s) : Function.Bijective fun x : Word => x ^^^ shr32 x s := by
  refine bijective_of_injective fun x y (h : x ^^^ shr32 x s = y ^^^ shr32 y s) => ?_
  have hshift : shr32 (x ^^^ y) s = x ^^^ y := calc
    shr32 (x ^^^ y) s = shr32 x s ^^^ shr32 y s := BitVec.ushiftRight_xor_distrib x y s
    _ = x ^^^ (x ^^^ shr32 x s) ^^^ shr32 y s := by rw [xor_cancel_left]
    _ = x ^^^ (y ^^^ shr32 y s) ^^^ shr32 y s := by rw [h]
    _ = x ^^^ y := by rw [← xor_assoc, xor_cancel_right]
  exact BitVec.xor_eq_zero_iff.1 (eq_zero_of_shr32_eq_self hs hshift)

/-! ## MIXK, ROUND and FMIX (R67, R68, R69) -/

theorem mixk_bijective : Function.Bijective mixk :=
  (mul32_bijective (c := c2) (by decide)).comp
    ((rotl32_bijective (r := r1) (by decide)).comp (mul32_bijective (c := c1) (by decide)))

theorem round_bijective (k : Word) : Function.Bijective fun h => round h k :=
  (add32_bijective roundAdd).comp ((mul32_bijective (c := roundMul) (by decide)).comp
    ((rotl32_bijective (r := r2) (by decide)).comp (xor_bijective (mixk k))))

theorem fmix_bijective : Function.Bijective fmix :=
  (xorShr32_bijective (s := 16) (by decide)).comp ((mul32_bijective (c := f2) (by decide)).comp
    ((xorShr32_bijective (s := 13) (by decide)).comp ((mul32_bijective (c := f1) (by decide)).comp
      (xorShr32_bijective (s := 16) (by decide)))))

/-- Settles O10: c1 and c2 are odd and a rotation loses no bit. -/
theorem mixkIsABijection : Obligations.MixkIsABijection :=
  ⟨fun _ => rfl, by decide, mixk_bijective⟩

/-- ROUND truncated once, after the multiplication and the addition. -/
theorem round_toNat (h k : Word) : (round h k).toNat =
    ((rotl32 (h ^^^ mixk k) 13).toNat * 5 + 0xE6546B64) % 2 ^ 32 := by
  change (add32 (mul32 (rotl32 (h ^^^ mixk k) r2) roundMul) roundAdd).toNat = _
  rw [add32_toNat, mul32_toNat, Nat.mod_add_mod]
  rfl

/-- Settles O11: m is odd, and XOR, rotation and addition lose nothing. -/
theorem roundIsABijectionInH : Obligations.RoundIsABijectionInH :=
  ⟨fun _ _ => rfl, round_toNat, by decide, round_bijective⟩

/-- Settles O12: f1 and f2 are odd, and a word is determined by its XOR with its own shift. -/
theorem fmixIsABijection : Obligations.FmixIsABijection := by
  refine ⟨?_, by decide, fmix_bijective⟩
  rintro h _ _ _ _ rfl rfl rfl rfl
  rfl

end Sys2Proof.Machine
end

section
/-! PROOFS. Initialisation (41_init.md): what INIT does and when it is issued, and that no later operation reads SEED. -/

namespace Sys2Proof.Machine

/-! ## SEED after INIT (R76) -/

theorem execWord_commutes {f : State → State} {w : OpWord} {s t : State}
    (hx : ∀ {i t}, exec i s = .next t → exec i (f s) = .next (f t)) (h : execWord w s = .next t) :
    execWord w (f s) = .next (f t) := by
  unfold execWord at *
  cases hd : decode w with
  | ok i =>
    rw [hd] at h
    exact hx h
  | invalid e => simp [hd] at h

/-- A change of the state that the sequencer's choice does not see and every operation commutes with, the engine's step
commutes with. -/
theorem engineStep_commutes {f : State → State} {s t : State} (hn : nextWord (f s) = nextWord s)
    (hx : ∀ {i t}, exec i s = .next t → exec i (f s) = .next (f t)) (h : engineStep s = .next t) :
    engineStep (f s) = .next (f t) := by
  unfold engineStep at *
  rw [hn]
  cases hw : nextWord s with
  | word w =>
    rw [hw] at h
    exact execWord_commutes hx h
  | noStep =>
    rw [hw] at h
    cases h
    rfl
  | pastLength => simp [hw] at h

/-- Outside INIT the sequencer's choice does not depend on SEED. -/
theorem nextWord_setSeed {s : State} (v : Word) (hp : s.phase ≠ .init) : nextWord (s.setSeed v) = nextWord s := by
  unfold nextWord
  rw [State.setSeed_phase]
  split
  · rfl
  · exact absurd ‹_› hp
  · rfl
  · rfl

/-- An operation does the same whatever SEED holds: INIT too takes its seed from its operand. -/
theorem exec_setSeed {i : Instr} {s t : State} (v : Word) (h : exec i s = .next t) :
    exec i (s.setSeed v) = .next (t.setSeed v) := by
  rcases exec_eq_next h with ⟨k, rfl, rfl⟩ | ⟨k, rfl, rfl⟩ | ⟨n, k, hi, hk, rfl⟩ | ⟨k, rfl, rfl⟩
  · rfl
  · rfl
  · have hz : tailZeros n k = true := (tailZeros_iff n k).2 hk
    rcases hi with ⟨rfl, rfl⟩ | ⟨rfl, rfl⟩ | ⟨rfl, rfl⟩ <;> exact if_pos hz
  · rfl

/-- Settles O34: outside INIT neither the sequencer's choice nor any operation reads SEED. -/
theorem seedIsUsedByInitOnly : Obligations.SeedIsUsedByInitOnly := by
  intro s t v hp h
  exact engineStep_commutes (f := (State.setSeed · v)) (nextWord_setSeed v hp) (exec_setSeed v) h

/-! ## INIT (R75) -/

/-- INIT's operation code is 0, so its word is its operand. -/
theorem encode_init_toNat (imm : Word) : (encode (.init imm)).toNat = imm.toNat := by
  simp [encode_toNat, Instr.opcode, Instr.operand]

/-- INIT is issued in PHASE INIT only, with SEED as its operand. -/
theorem nextWord_eq_init_iff (s : State) (imm : Word) :
    nextWord s = .word (encode (.init imm)) ↔ s.phase = .init ∧ imm = s.seed :=
  (nextWord_eq_word s 0 imm).trans (by simp)

/-- Settles O18: the effect is INIT's definition, and both INIT and ABSORB are BUSY. -/
theorem initLoadsTheSeed : Obligations.InitLoadsTheSeed := by
  intro imm s
  exact ⟨rfl, encode_init_toNat imm, nextWord_eq_init_iff s imm,
    fun hp => State.status_of_busy ((Phase.busy_iff _).2 (.inl hp)), State.status_of_busy rfl⟩

end Sys2Proof.Machine
end
section
/-! PROOFS. Block mixing (42_block.md): ROUND written out, BLK's word and when it is issued, and that OFF does not wrap. -/

namespace Sys2Proof.Machine

/-- R80's steps written out: MIXK is the first three, ROUND the rest. -/
theorem round_eq_of_steps {h k a b c d e : Word} (ha : a = k * 0xCC9E2D51) (hb : b = (a <<< 15) ||| (a >>> 17))
    (hc : c = b * 0x1B873593) (hd : d = h ^^^ c) (he : e = (d <<< 13) ||| (d >>> 19)) :
    round h k = e * 5 + 0xE6546B64 := by
  have hmix : mixk k = c := by subst hc hb ha; rfl
  subst he hd hmix
  rfl

/-- BLK's operation code is 1. -/
theorem encode_blk_toNat (imm : Word) : (encode (.blk imm)).toNat = 2 ^ 32 + imm.toNat := by
  simp [encode_toNat, Instr.opcode, Instr.operand]

/-- BLK is issued in ABSORB with at least 4 bytes left, with the next 4 as its operand. -/
theorem nextWord_eq_blk_iff (s : State) (imm : Word) : nextWord s = .word (encode (.blk imm)) ↔
    s.phase = .absorb ∧ s.off.toNat + 4 ≤ s.len.toNat ∧ s.msg.memRead s.off.toNat 4 = some imm :=
  (nextWord_eq_word s 1 imm).trans (by simp)

/-- OFF moved on by no more than the bytes left does not wrap: LEN is below 2^32. -/
theorem off_add_toNat {s : State} {n : Nat} (hle : s.off.toNat + n ≤ s.len.toNat) :
    (s.off + BitVec.ofNat 32 n).toNat = s.off.toNat + n := by
  have hlen := s.len.isLt
  rw [BitVec.toNat_add, BitVec.toNat_ofNat]
  omega

/-- Settles O19: the effect is BLK's definition with ROUND written out; issued, BLK has 4 bytes left below LEN, and
ABSORB, which it leaves, is BUSY. -/
theorem blkMixesOneBlock : Obligations.BlkMixesOneBlock := by
  rintro imm s a b c d e f ha hb hc hd he rfl
  rw [← round_eq_of_steps ha hb hc hd he]
  refine ⟨rfl, rfl, encode_blk_toNat imm, nextWord_eq_blk_iff s imm, fun hw => ?_⟩
  obtain ⟨hp, hle, -⟩ := (nextWord_eq_blk_iff s imm).1 hw
  have hbusy : s.phase.busy = true := (Phase.busy_iff _).2 (.inr hp)
  exact ⟨off_add_toNat hle, State.status_of_busy hbusy, State.status_of_busy hbusy⟩

end Sys2Proof.Machine
end
section
/-! PROOFS. Tail mixing (43_tail.md): the effect, the word and the issue of the three tail operations, and that the
function's words are the little-endian words of the message's bytes. -/

namespace Sys2Proof.Machine

/-! ## TAIL1, TAIL2, TAIL3 (R85, R86, R87) -/

theorem tailMix_of_lt {n : Nat} {v : Word} (s : State) (h : v.toNat < 2 ^ (8 * n)) :
    tailMix n v s = .next (s.absorbed (s.h ^^^ mixk v) n) :=
  if_pos ((tailZeros_iff n v).2 h)

/-- TAILn, whose code is n + 1, is issued in ABSORB with exactly n bytes left, with these bytes as its operand. -/
theorem nextWord_eq_tail_iff {n : Nat} {op : BitVec 3} (s : State) (v : Word) (hop : op.toNat = 1 + n)
    (h1 : 1 ≤ n) (h3 : n ≤ 3) : nextWord s = .word (opWord op v) ↔
      s.phase = .absorb ∧ s.len.toNat = s.off.toNat + n ∧ s.msg.memRead s.off.toNat n = some v := by
  rw [nextWord_eq_word]
  obtain rfl | rfl | rfl : n = 1 ∨ n = 2 ∨ n = 3 := by omega
  · obtain rfl : op = 2 := BitVec.eq_of_toNat_eq hop
    simp
  · obtain rfl : op = 3 := BitVec.eq_of_toNat_eq hop
    simp
  · obtain rfl : op = 4 := BitVec.eq_of_toNat_eq hop
    simp

/-- A byte zero-extended is a given word below 2^8 exactly when it is that word's low byte. -/
theorem setWidth_32_eq_iff {b : Byte} {v : Word} (hv : v.toNat < 2 ^ 8) :
    b.setWidth 32 = v ↔ b = v.setWidth 8 := by
  have hb : b.toNat < 2 ^ 8 := b.isLt
  rw [← BitVec.toNat_inj, ← BitVec.toNat_inj, BitVec.toNat_setWidth, BitVec.toNat_setWidth]
  omega

/-- A wide read of one byte is that byte, zero-extended. -/
theorem Memory.memRead_one_eq_some_iff {m : Memory} {a : Nat} {v : Word} (hv : v.toNat < 2 ^ 8) :
    m.memRead a 1 = some v ↔ m.readByte a = some (v.setWidth 8) := by
  cases hb : m.readByte a with
  | none => simp [Memory.memRead, hb]
  | some b => simp [Memory.memRead, hb, setWidth_32_eq_iff hv]

/-- Settles O20: each TAILn is the shared action with its n, whose operand fits; TAIL1's wide read is of one byte. -/
theorem tailMixesTheLastBytes : Obligations.TailMixesTheLastBytes := by
  intro imm s
  refine ⟨fun h => ⟨tailMix_of_lt (n := 1) s h, encode_toNat (.tail1 imm), ?_⟩,
    fun h => ⟨tailMix_of_lt (n := 2) s h, encode_toNat (.tail2 imm), ?_⟩,
    fun h => ⟨tailMix_of_lt (n := 3) s h, encode_toNat (.tail3 imm), ?_⟩⟩
  · rw [← Memory.memRead_one_eq_some_iff h]
    exact nextWord_eq_tail_iff s imm rfl (by decide) (by decide)
  · exact nextWord_eq_tail_iff s imm rfl (by decide) (by decide)
  · exact nextWord_eq_tail_iff s imm rfl (by decide) (by decide)

/-! ## The function's words (R88, 42_block.md R81) -/

/-- The little-endian value of some bytes of a message: the first byte, and above it the value of the others. -/
theorem littleEndian_take_drop_succ {data : List Byte} {p : Nat} (n : Nat) (hp : p < data.length) :
    littleEndian ((data.drop p).take (n + 1)) =
      dataByte data p ||| littleEndian ((data.drop (p + 1)).take n) <<< 8 := by
  rw [List.drop_eq_getElem_cons hp, List.take_succ_cons, dataByte, List.getD_eq_getElem _ _ hp]
  rfl

theorem littleEndian_take_zero (bs : List Byte) : littleEndian (bs.take 0) = 0 := rfl

/-- A block word sets each byte at its own place, as shifting the later bytes up one by one does. -/
theorem hashBlock_eq_littleEndian {data : List Byte} {i : Nat} (hi : i < data.length / 4) :
    hashBlock data i = littleEndian ((data.drop (4 * i)).take 4) := by
  rw [littleEndian_take_drop_succ 3 (by omega), littleEndian_take_drop_succ 2 (by omega),
    littleEndian_take_drop_succ 1 (by omega), littleEndian_take_drop_succ 0 (by omega), littleEndian_take_zero]
  simp [hashBlock, shl32, BitVec.shiftLeft_or_distrib, ← BitVec.shiftLeft_add, BitVec.or_assoc]

/-- The tail word's XORs set the one, two or three last bytes of a zero word. -/
theorem hashTailWord_eq_littleEndian {data : List Byte} (ht : data.length % 4 ≠ 0) :
    hashTailWord data = littleEndian (data.drop (4 * (data.length / 4))) := by
  have hdm := Nat.div_add_mod data.length 4
  rw [← List.take_of_length_le (l := data.drop _) (i := data.length % 4) (by rw [List.length_drop]; omega)]
  obtain e | e | e : data.length % 4 = 1 ∨ data.length % 4 = 2 ∨ data.length % 4 = 3 := by omega
  · rw [e, littleEndian_take_drop_succ 0 (by omega), littleEndian_take_zero]
    simp [hashTailWord, e]
  · rw [e, littleEndian_take_drop_succ 1 (by omega), littleEndian_take_drop_succ 0 (by omega), littleEndian_take_zero]
    simpa [hashTailWord, e, dataByte, shl32] using tail_two_bytes _ _
  · rw [e, littleEndian_take_drop_succ 2 (by omega), littleEndian_take_drop_succ 1 (by omega),
      littleEndian_take_drop_succ 0 (by omega), littleEndian_take_zero]
    simpa [hashTailWord, e, dataByte, shl32] using tail_three_bytes _ _ _

/-- Settles O49: the tail word by the number of its bytes, a block word byte by byte. -/
theorem hashWordsAreLittleEndian : Obligations.HashWordsAreLittleEndian :=
  fun _ => ⟨hashTailWord_eq_littleEndian, fun _ => hashBlock_eq_littleEndian⟩

end Sys2Proof.Machine
end

section
/-! PROOFS. Finalisation (44_final.md): FIN's effect with FMIX written out, its word and when it is issued. -/

namespace Sys2Proof.Machine

/-- FIN is issued in ABSORB when no message byte is left, with LEN as its operand. -/
theorem nextWord_eq_fin_iff (s : State) (imm : Word) :
    nextWord s = .word (encode (.fin imm)) ↔ s.phase = .absorb ∧ s.off = s.len ∧ imm = s.len :=
  (nextWord_eq_word s 5 imm).trans (by simp)

/-- Settles O22: the effect is FIN's definition with FMIX written out as O12 has it; the state it leaves is in DONE, so
STATUS and DIGEST read as they do there. -/
theorem finFinishesTheHash : Obligations.FinFinishesTheHash := by
  rintro imm s x a b c d e rfl ha hb hc hd rfl
  have hfmix : fmix (s.h ^^^ imm) = d ^^^ (d >>> 16) := fmixIsABijection.1 _ a b c d ha hb hc hd
  rw [← hfmix]
  exact ⟨rfl, rfl, encode_toNat (.fin imm), nextWord_eq_fin_iff s imm, State.status_of_done rfl,
    hostRead_digest_of_done rfl⟩

end Sys2Proof.Machine
end

section
/-! PROOFS. The sequencer (45_sequencer.md): the word it selects and the step that executes it, the canonical stream,
and that a transaction issues it, takes its step count and computes hash32, alone and under interleaving. -/

namespace Sys2Proof.Machine

/-! ## Every operation and every permitted move gives a next state (R107) -/

theorem tailMix_total {n : Nat} {v : Word} (s : State) (h : v.toNat < 2 ^ (8 * n)) : ∃ t, tailMix n v s = .next t :=
  ⟨_, tailMix_of_lt s h⟩

/-- Settles O23: only a tail operation can refuse, and not with an operand that fits its bytes. -/
theorem everyOperationCompletes : Obligations.EveryOperationCompletes := by
  intro i s hwf
  rw [Instr.wf_iff] at hwf
  cases i with
  | init v => exact ⟨_, rfl⟩
  | blk v => exact ⟨_, rfl⟩
  | tail1 v => exact tailMix_total (n := 1) s hwf
  | tail2 v => exact tailMix_total (n := 2) s hwf
  | tail3 v => exact tailMix_total (n := 3) s hwf
  | fin v => exact ⟨_, rfl⟩

/-- With OFF at most LEN in ABSORB the engine's step is not refused. -/
theorem engineStep_total {s : State} (h : s.phase = .absorb → s.off.toNat ≤ s.len.toNat) :
    ∃ t, engineStep s = .next t := by
  rcases engineStep_cases s with ⟨_, _, e⟩ | ⟨hp, hgt, _⟩ | ⟨_, e⟩ | ⟨_, _, e⟩ | ⟨_, _, _, _, e⟩ |
    ⟨_, _, _, _, _, _, _, e⟩
  · exact ⟨_, e⟩
  · exact absurd (h hp) (Nat.not_le.2 hgt)
  · exact ⟨_, e⟩
  · exact ⟨_, e⟩
  · exact ⟨_, e⟩
  · exact ⟨_, e⟩

theorem hostRead_total {i : RegNum} (s : State) (h : i.toNat ≤ 4) : ∃ t, hostRead i s = .next t := by
  rcases hostRead_cases i s with ⟨_, _, e⟩ | e
  · exact ⟨_, e⟩
  · exact absurd e (hostRead_ne_refused s h)

theorem hostWrite_total {i : RegNum} (v : Word) (s : State) (h : i.toNat ≤ 4) : ∃ t, hostWrite i v s = .next t := by
  rcases hostWrite_cases i v s with e | ⟨_, _, _, e⟩ | ⟨_, _, e⟩ | ⟨_, _, e⟩ | e
  · exact ⟨_, e⟩
  · exact ⟨_, e⟩
  · exact ⟨_, e⟩
  · exact ⟨_, e⟩
  · exact absurd e (hostWrite_ne_refused v s h)

theorem hostPlace_total {o : Word} (b : Byte) {s : State} (h : s.phase.busy = true → s.len.toNat ≤ o.toNat) :
    ∃ t, hostPlace o b s = .next t := by
  rcases hostPlace_cases o b s with ⟨_, e⟩ | ⟨hb, hlt, _⟩
  · exact ⟨_, e⟩
  · exact absurd (h hb) (Nat.not_le.2 hlt)

theorem Move.permitted_withMoves {m : Move} {s : State} (ms : List Move) (h : m.permitted s) :
    m.permitted (s.withMoves ms) := by
  cases m <;> exact h

theorem perform_total {m : Move} {s : State} (hi : s.Inv) (hm : m.permitted s) : ∃ t, perform m s = .next t := by
  obtain ⟨-, ho⟩ := hi
  cases m with
  | engine => exact engineStep_total fun hp => And.left (ho hp)
  | read i => exact hostRead_total s hm
  | write i v => exact hostWrite_total v s hm
  | place o b => exact hostPlace_total b hm
  | reset | waitFree | waitDone => exact ⟨_, rfl⟩

/-- Settles O31: the engine's move by the invariant, a host access by its permission. -/
theorem permittedMovesNeverStop : Obligations.PermittedMovesNeverStop := by
  intro s hi hm
  rcases turn_cases s with ⟨_, hs⟩ | ⟨m, rest, hms, hs⟩
  · rw [hs]
    exact perform_total (m := .engine) hi trivial
  · rw [hs]
    have hperm : m.permitted s := hm m (by rw [hms]; rfl)
    exact perform_total (s := s.withMoves rest) hi (Move.permitted_withMoves rest hperm)

/-! ## The word that is selected, and its execution (R101, R102) -/

/-- The engine's step executes the word that the sequencer issues. -/
theorem engineStep_of_word {s : State} {w : OpWord} {i : Instr} (hw : nextWord s = .word w) (hd : decode w = .ok i) :
    engineStep s = exec i s := by
  simp only [engineStep, hw, execWord, hd]

/-- Settles O27: with the engine first, a step is the engine's. -/
theorem stepRunsTheIssuedOperation : Obligations.StepRunsTheIssuedOperation := by
  intro s w i hw hd
  refine ⟨fun hm => ?_, fun rest hm => ?_⟩
  · rw [step_nil hm, engineStep_of_word hw hd]
  · rw [step_cons hm]
    exact engineStep_of_word (s := s.withMoves rest) hw hd

/-- Settles O25: the selection by the bytes left, the execution by the word's decoding. -/
theorem sequencerSelectsTheWord : Obligations.SequencerSelectsTheWord := by
  intro s
  refine ⟨nextWord_init, fun hp hle r v hr => ?_, fun w hw => ?_⟩
  · have hr : r + s.off.toNat = s.len.toNat := by
      rw [hr, BitVec.toNat_sub_of_le hle, Nat.sub_add_cancel hle]
    refine ⟨fun h4 hv => (nextWord_eq_blk_iff s v).2 ⟨hp, by omega, hv⟩,
      fun h3 hv => (nextWord_eq_tail_iff s v (op := 4) rfl (by decide) (by decide)).2 ⟨hp, by omega, hv⟩,
      fun h2 hv => (nextWord_eq_tail_iff s v (op := 3) rfl (by decide) (by decide)).2 ⟨hp, by omega, hv⟩,
      fun h1 hv => (nextWord_eq_tail_iff s v (op := 2) rfl (by decide) (by decide)).2 ⟨hp, by omega, hv⟩,
      fun h0 => nextWord_fin hp (BitVec.eq_of_toNat_eq (by omega))⟩
  · obtain ⟨i, hd, -⟩ := decode_nextWord hw
    exact ⟨i, hd, engineStep_of_word hw hd⟩

theorem exists_issue_eq_word_iff (op : BitVec 3) (o : Option Word) :
    (∃ w, issue op o = .word w) ↔ o.isSome = true := by
  cases o <;> simp [issue]

/-- With OFF at most LEN the choice in ABSORB issues a word if the bytes asked for can be read; FIN asks for none. -/
theorem absorbWord_eq_issue {s : State} (hle : s.off.toNat ≤ s.len.toNat) :
    ∃ op o, absorbWord s = issue op o ∧
      (o.isSome = true ↔ (s.msg.memRead s.off.toNat s.bytesAsked).isSome = true) := by
  have hask : s.bytesAsked = min 4 (s.len.toNat - s.off.toNat) := rfl
  have reads {n : Nat} (op : BitVec 3) (hn : s.bytesAsked = n)
      (e : absorbWord s = issue op (s.msg.memRead s.off.toNat n)) : ∃ op o, absorbWord s = issue op o ∧
        (o.isSome = true ↔ (s.msg.memRead s.off.toNat s.bytesAsked).isSome = true) :=
    ⟨op, _, e, by rw [hn]⟩
  rcases absorbWord_cases s with ⟨h, _⟩ | ⟨h, e⟩ | ⟨h, e⟩ | ⟨h, e⟩ | ⟨h, e⟩ | ⟨h, e⟩
  · omega
  · have h0 : s.bytesAsked = 0 := by omega
    exact ⟨5, some s.len, e, by rw [h0]; exact iff_of_true rfl rfl⟩
  · exact reads 2 (by omega) e
  · exact reads 3 (by omega) e
  · exact reads 4 (by omega) e
  · exact reads 1 (by omega) e

/-- Settles O26, by cases on PHASE: in ABSORB both parts are about the one operand that is asked for. -/
theorem engineHasAStepExactlyWhenBusyAndReadable : Obligations.EngineHasAStepExactlyWhenBusyAndReadable := by
  intro s hle
  cases hp : s.phase with
  | idle => exact ⟨by simp [nextWord, hp], fun _ => engineStep_of_idle hp⟩
  | done => exact ⟨by simp [nextWord, hp], fun _ => engineStep_of_done hp⟩
  | init =>
    have hw : ∃ w, nextWord s = .word w := ⟨_, nextWord_init hp⟩
    exact ⟨iff_of_true hw (.inl rfl), absurd hw⟩
  | absorb =>
    obtain ⟨op, o, e, ho⟩ := absorbWord_eq_issue (hle hp)
    have hw : nextWord s = issue op o := by simp only [nextWord, hp, e]
    rw [← Memory.memRead_isSome, ← ho, hw, exists_issue_eq_word_iff]
    refine ⟨by simp, fun hnone => ?_⟩
    simp only [engineStep, hw, Option.not_isSome_iff_eq_none.1 hnone, issue]

/-! ## withFetchWord (log 15) -/

theorem decodeTableWord_encode {i : Instr} (h : i.wf = true) : decodeTableWord 40 (encode i).toNat = some i := by
  have hlt := (encode i).isLt
  have hmod : (encode i).toNat % 2 ^ 40 = (encode i).toNat := Nat.mod_eq_of_lt (by omega)
  rw [decodeTableWord, hmod, if_pos hlt, BitVec.ofNat_toNat, BitVec.setWidth_eq, decode_encode h]
  rfl

theorem State.withNext_moves (s : State) (i : Instr) : (s.withNext i).moves = [] := by
  cases i <;> rfl

theorem State.withNext_h (s : State) (i : Instr) : (s.withNext i).h = s.h := by
  cases i <;> rfl

/-- The state that awaits `n` bytes has the operand's to read. -/
theorem State.memRead_awaiting (s : State) {n : Nat} {v : Word} (h : v.toNat < 2 ^ (8 * n)) :
    (s.awaiting n v).msg.memRead (s.awaiting n v).off.toNat n = some v :=
  Memory.memRead_writeWord s.msg v h

theorem nextWord_awaiting_tail (s : State) {n : Nat} {op : BitVec 3} {v : Word} (hop : op.toNat = 1 + n) (h1 : 1 ≤ n)
    (h3 : n ≤ 3) (h : v.toNat < 2 ^ (8 * n)) : nextWord (s.awaiting n v) = .word (opWord op v) := by
  have hlen : (BitVec.ofNat 32 n).toNat = 0 + n := by
    rw [BitVec.toNat_ofNat]
    omega
  exact (nextWord_eq_tail_iff _ v hop h1 h3).2 ⟨rfl, hlen, s.memRead_awaiting h⟩

theorem nextWord_withNext (s : State) {i : Instr} (h : i.wf = true) :
    nextWord (s.withNext i) = .word (encode i) := by
  rw [Instr.wf_iff] at h
  cases i with
  | init v => exact nextWord_init rfl
  | blk v => exact (nextWord_eq_blk_iff _ v).2 ⟨rfl, Nat.le_refl 4, s.memRead_awaiting h⟩
  | tail1 v => exact nextWord_awaiting_tail s (n := 1) rfl (by decide) (by decide) h
  | tail2 v => exact nextWord_awaiting_tail s (n := 2) rfl (by decide) (by decide) h
  | tail3 v => exact nextWord_awaiting_tail s (n := 3) rfl (by decide) (by decide) h
  | fin v => exact nextWord_fin rfl rfl

/-- Settles O28: the made state's next word is the operation's, and no move is listed before the engine's. -/
theorem fetchedWordIsRunNext : Obligations.FetchedWordIsRunNext := by
  intro s i h
  have hd := decodeTableWord_encode h
  have hs : s.withFetchWord 40 (encode i).toNat = s.withNext i := by simp only [State.withFetchWord, hd]
  rw [hs, step_nil (s.withNext_moves i)]
  exact ⟨hd, engineStep_of_word (nextWord_withNext s h) (decode_encode h), s.withNext_h i⟩

/-! ## The canonical stream (R103, R105) -/

/-- The tail operation of n bytes, for n from 1 to 3. -/
def tailOp : Nat → Word → Instr
  | 1 => .tail1
  | 2 => .tail2
  | _ => .tail3

/-- TAILn has code n + 1, and acts as the shared action with its n. -/
theorem tailOp_spec {n : Nat} (v : Word) (h1 : 1 ≤ n) (h3 : n ≤ 3) :
    (∃ op : BitVec 3, op.toNat = 1 + n ∧ encode (tailOp n v) = opWord op v) ∧
      (tailOp n v).operand = v ∧ (tailOp n v).operandBits = 8 * n ∧
      ∀ s, exec (tailOp n v) s = tailMix n v s := by
  obtain rfl | rfl | rfl : n = 1 ∨ n = 2 ∨ n = 3 := by omega
  · exact ⟨⟨2, rfl, rfl⟩, rfl, rfl, fun _ => rfl⟩
  · exact ⟨⟨3, rfl, rfl⟩, rfl, rfl, fun _ => rfl⟩
  · exact ⟨⟨4, rfl, rfl⟩, rfl, rfl, fun _ => rfl⟩

theorem streamBlocks_eq (data : List Byte) :
    streamBlocks data = (List.range (data.length / 4)).map fun i => .blk (hashBlock data i) :=
  List.map_congr_left fun _ hi => by rw [hashBlock_eq_littleEndian (List.mem_range.1 hi)]

theorem streamTail_of_eq_zero {data : List Byte} (h : data.length % 4 = 0) : streamTail data = [] := by
  simp only [streamTail, h]

theorem streamTail_of_ne_zero {data : List Byte} (h : data.length % 4 ≠ 0) :
    streamTail data = [tailOp (data.length % 4) (hashTailWord data)] := by
  rw [hashTailWord_eq_littleEndian h]
  have hlt := Nat.mod_lt data.length (show 0 < 4 by decide)
  obtain e | e | e : data.length % 4 = 1 ∨ data.length % 4 = 2 ∨ data.length % 4 = 3 := by omega
  · simp only [streamTail, e, tailOp]
  · simp only [streamTail, e, tailOp]
  · simp only [streamTail, e, tailOp]

theorem length_streamBlocks (data : List Byte) : (streamBlocks data).length = data.length / 4 := by
  simp [streamBlocks]

theorem length_streamTail (data : List Byte) :
    (streamTail data).length = if data.length % 4 = 0 then 0 else 1 := by
  split
  · rw [streamTail_of_eq_zero ‹_›]; rfl
  · rw [streamTail_of_ne_zero ‹_›]; rfl

theorem length_stream (data : List Byte) (seed : Word) : (stream data seed).length = stepCount data.length := by
  simp only [stream, List.length_cons, List.length_append, length_streamBlocks, length_streamTail, List.length_nil,
    stepCount]
  omega

/-- The little-endian value of at most four bytes fits in them. -/
theorem littleEndian_lt {bs : List Byte} (h : bs.length ≤ 4) : (littleEndian bs).toNat < 2 ^ (8 * bs.length) := by
  induction bs with
  | nil => decide
  | cons b bs ih =>
    rw [List.length_cons] at h ⊢
    have hb := b.isLt
    have hr := ih (by omega)
    have h24 : (littleEndian bs).toNat < 2 ^ 24 :=
      Nat.lt_of_lt_of_le hr (Nat.pow_le_pow_right (by decide) (by omega))
    have hcons : (littleEndian (b :: bs)).toNat = b.toNat + 2 ^ 8 * (littleEndian bs).toNat :=
      byte_or_shiftLeft_toNat b h24
    rw [hcons, Nat.mul_add, Nat.pow_add]
    omega

/-- The tail word fits in the bytes of the tail. -/
theorem hashTailWord_lt {data : List Byte} (h : data.length % 4 ≠ 0) :
    (hashTailWord data).toNat < 2 ^ (8 * (data.length % 4)) := by
  have hlen : (data.drop (4 * (data.length / 4))).length = data.length % 4 := by
    rw [List.length_drop]
    omega
  have hlt := littleEndian_lt (bs := data.drop (4 * (data.length / 4))) (by omega)
  rwa [hashTailWord_eq_littleEndian h, ← hlen]

/-! ## Executing the stream (R100, R103) -/

theorem execAll_append {is : List Instr} {s t : State} (js : List Instr) (h : execAll is s = .next t) :
    execAll (is ++ js) s = execAll js t := by
  induction is generalizing s with
  | nil => cases h; rfl
  | cons i is ih =>
    rw [List.cons_append, execAll]
    rw [execAll] at h
    cases hx : exec i s with
    | next u =>
      rw [hx] at h
      exact ih h
    | fault e => simp [hx] at h
    | refused e => simp [hx] at h

theorem State.absorbed_zero (s : State) : s.absorbed s.h 0 = s := by
  simp [State.absorbed]

theorem State.absorbed_absorbed (s : State) (a b : Word) (m n : Nat) :
    (s.absorbed a m).absorbed b n = s.absorbed b (m + n) := by
  simp [State.absorbed, BitVec.ofNat_add, BitVec.add_assoc]

theorem execAll_blk (v : Word) (s : State) : execAll [.blk v] s = .next (s.absorbed (round s.h v) 4) := rfl

theorem execAll_fin (v : Word) (s : State) : execAll [.fin v] s = .next (s.finished (fmix (s.h ^^^ v))) := rfl

/-- The first n blocks executed: the block loop of hash32. -/
theorem execAll_blocks (f : Nat → Word) (n : Nat) (s : State) :
    execAll ((List.range n).map fun i => .blk (f i)) s =
      .next (s.absorbed ((List.range n).foldl (fun h i => round h (f i)) s.h) (4 * n)) := by
  induction n with
  | zero => exact congrArg _ s.absorbed_zero.symm
  | succ n ih =>
    rw [List.range_succ, List.map_append, execAll_append _ ih, List.map_singleton, execAll_blk, List.foldl_append,
      State.absorbed_absorbed, State.absorbed_h, Nat.mul_succ, List.foldl_cons, List.foldl_nil]

/-- The tail executed: step 5 of hash32. -/
theorem execAll_streamTail (data : List Byte) (s : State) :
    execAll (streamTail data) s = .next (s.absorbed (hashTail data s.h) (data.length % 4)) := by
  by_cases h : data.length % 4 = 0
  · rw [streamTail_of_eq_zero h, hashTail, if_neg (by omega), h, State.absorbed_zero]
    rfl
  · obtain ⟨-, -, -, hx⟩ := tailOp_spec (n := data.length % 4) (hashTailWord data) (by omega) (by omega)
    rw [streamTail_of_ne_zero h, hashTail, if_pos (by omega), execAll, hx, tailMix_of_lt s (hashTailWord_lt h)]
    rfl

/-- From INIT to FIN only H, OFF and PHASE change. -/
theorem State.finished_absorbed_beginWalk (s : State) (a b c : Word) (n : Nat) :
    ((s.beginWalk a).absorbed b n).finished c = { s with h := c, off := BitVec.ofNat 32 n, phase := .done } := by
  simp [State.finished, State.absorbed, State.beginWalk]

/-- Settles O52, part by part of the stream: INIT, the blocks, the tail, FIN. -/
theorem canonicalStreamComputesHash32 : Obligations.CanonicalStreamComputesHash32 := by
  intro data seed s _
  have hinit (is : List Instr) : execAll (.init seed :: is) s = execAll is (s.beginWalk seed) := rfl
  rw [stream, hinit, streamBlocks_eq, List.append_assoc, execAll_append _ (execAll_blocks _ _ _),
    execAll_append _ (execAll_streamTail _ _), State.absorbed_absorbed, execAll_fin,
    State.finished_absorbed_beginWalk, Nat.div_add_mod]
  simp only [State.absorbed_h, State.beginWalk_h, hash32, hashBlocks]

/-! ## The engine issues the stream (R103) -/

theorem issuedOps_succ {s t : State} {i : Instr} (n : Nat) (hw : nextWord s = .word (encode i)) (hi : i.wf = true)
    (hs : engineStep s = .next t) : issuedOps (n + 1) s = i :: issuedOps n t := by
  simp only [issuedOps, hw, decode_encode hi, hs]

theorem issuedOps_of_done {s : State} (n : Nat) (hp : s.phase = .done) : issuedOps n s = [] := by
  cases n with
  | zero => rfl
  | succ n => simp only [issuedOps, nextWord, hp]

theorem stream_getElem?_blk {data : List Byte} (seed : Word) {j : Nat} (hj : j < data.length / 4) :
    (stream data seed)[j + 1]? = some (.blk (hashBlock data j)) := by
  have hlen := length_streamBlocks data
  rw [stream, List.getElem?_cons_succ, List.append_assoc, List.getElem?_append_left (by omega), streamBlocks_eq]
  simp [hj]

theorem stream_getElem?_tail {data : List Byte} (seed : Word) (h : data.length % 4 ≠ 0) :
    (stream data seed)[data.length / 4 + 1]? = some (tailOp (data.length % 4) (hashTailWord data)) := by
  have hlen := length_streamBlocks data
  rw [stream, List.getElem?_cons_succ, List.append_assoc, List.getElem?_append_right (by omega), hlen, Nat.sub_self,
    streamTail_of_ne_zero h]
  rfl

theorem stream_getElem?_fin (data : List Byte) (seed : Word) :
    (stream data seed)[stepCount data.length - 1]? = some (.fin (BitVec.ofNat 32 data.length)) := by
  rw [← length_stream data seed, ← List.getLast?_eq_getElem?, stream, ← List.cons_append, List.getLast?_concat]

/-- The sequencer issues a well-formed operation next. -/
abbrev State.issues (s : State) (i : Instr) : Prop := nextWord s = .word (encode i) ∧ i.wf = true

theorem issues_blk {t : State} {data : List Byte} {j : Nat} (hh : t.holds data) (hp : t.phase = .absorb)
    (ho : t.off.toNat = 4 * j) (hj : j < data.length / 4) : t.issues (.blk (hashBlock data j)) := by
  have hl : t.len.toNat = data.length := hh.1
  have hread := State.holds_block hh hj
  rw [← ho] at hread
  exact ⟨(nextWord_eq_blk_iff t _).2 ⟨hp, by omega, hread⟩, rfl⟩

theorem issues_tailOp {t : State} {data : List Byte} (hh : t.holds data) (hp : t.phase = .absorb)
    (ho : t.off.toNat = 4 * (data.length / 4)) (hr : data.length % 4 ≠ 0) :
    t.issues (tailOp (data.length % 4) (hashTailWord data)) := by
  have hl : t.len.toNat = data.length := hh.1
  have hread := State.holds_tail hh hr
  rw [← ho] at hread
  obtain ⟨⟨op, hop, he⟩, hv, hbits, -⟩ :=
    tailOp_spec (n := data.length % 4) (hashTailWord data) (by omega) (by omega)
  refine ⟨?_, ?_⟩
  · rw [he]
    exact (nextWord_eq_tail_iff t _ hop (by omega) (by omega)).2 ⟨hp, by omega, hread⟩
  · rw [Instr.wf_iff, hv, hbits]
    exact hashTailWord_lt hr

theorem issues_fin {t : State} {data : List Byte} (hh : t.holds data) (hp : t.phase = .absorb)
    (ho : t.off.toNat = data.length) : t.issues (.fin (BitVec.ofNat 32 data.length)) := by
  obtain ⟨hl, -⟩ := hh
  have hlen : t.len = BitVec.ofNat 32 data.length := by rw [← hl, BitVec.ofNat_toNat, BitVec.setWidth_eq]
  have hol : t.off = t.len := BitVec.eq_of_toNat_eq (ho.trans hl.symm)
  exact ⟨hlen ▸ nextWord_fin hp hol, rfl⟩

/-- After k engine steps of a transaction the sequencer issues operation number k of the stream: INIT, then a block
while four bytes are left, then the tail if there is one, then FIN. -/
theorem issues_of_progress {data : List Byte} {seed : Word} {k : Nat} {t : State} (hk : k < stepCount data.length)
    (h : Progress data seed k t) : ∃ i, (stream data seed)[k]? = some i ∧ t.issues i := by
  have hst : stepCount data.length = 2 + data.length / 4 + if data.length % 4 = 0 then 0 else 1 := rfl
  obtain ⟨hs, hh, h⟩ := h
  have hfin (hlast : k = stepCount data.length - 1) :
      (stream data seed)[k]? = some (.fin (BitVec.ofNat 32 data.length)) := hlast ▸ stream_getElem?_fin data seed
  rcases h with ⟨rfl, hp⟩ | ⟨h1, h2, hp, ho, _⟩ | ⟨hr, h2, hp, ho, _⟩ | ⟨h1, _⟩
  · exact ⟨.init seed, rfl, hs ▸ nextWord_init hp, rfl⟩
  · obtain ⟨j, rfl⟩ := Nat.exists_eq_add_of_le' h1
    rw [Nat.add_sub_cancel] at ho
    by_cases hj : j < data.length / 4
    · exact ⟨_, stream_getElem?_blk seed hj, issues_blk hh hp ho hj⟩
    · obtain rfl : j = data.length / 4 := by omega
      by_cases hr : data.length % 4 = 0
      · exact ⟨_, hfin (by rw [hst, if_pos hr]; omega), issues_fin hh hp (by omega)⟩
      · exact ⟨_, stream_getElem?_tail seed hr, issues_tailOp hh hp ho hr⟩
  · exact ⟨_, hfin (by rw [hst, if_neg hr]; omega), issues_fin hh hp ho⟩
  · omega

/-- From k engine steps on, the operations issued are the rest of the stream. -/
theorem issuedOps_of_progress {data : List Byte} {seed : Word} {n k : Nat} {t : State}
    (hkn : stepCount data.length ≤ k + n) (hk : k ≤ stepCount data.length) (h : Progress data seed k t) :
    issuedOps n t = (stream data seed).drop k := by
  induction n generalizing k t with
  | zero =>
    rw [List.drop_of_length_le (by rw [length_stream]; omega)]
    rfl
  | succ n ih =>
    rcases Nat.lt_or_eq_of_le hk with hlt | rfl
    · obtain ⟨i, hi, hw, hwf⟩ := issues_of_progress hlt h
      obtain ⟨hlen, rfl⟩ := List.getElem?_eq_some_iff.1 hi
      obtain ⟨t', hs, h', -⟩ := progress_engine hlt h
      rw [issuedOps_succ n hw hwf hs, List.drop_eq_getElem_cons hlen, ih (by omega) hlt h']
    · obtain ⟨hp, -⟩ := progress_done h
      rw [issuedOps_of_done _ hp, List.drop_of_length_le (length_stream data seed).le]

/-- Settles O50: the form from the stream's parts, the issue by induction over the transaction. -/
theorem engineIssuesTheCanonicalStream : Obligations.EngineIssuesTheCanonicalStream := by
  refine ⟨fun data seed => ⟨streamBlocks data, streamTail data, rfl, length_streamBlocks data, fun i hi => ?_,
    streamTail_of_eq_zero, fun h => ?_, fun h => ?_, fun h => ?_⟩, fun s data n hp hh hn => ?_⟩
  · obtain ⟨_, -, rfl⟩ := List.mem_map.1 hi
    rfl
  · rw [streamTail_of_ne_zero (by omega), h]; rfl
  · rw [streamTail_of_ne_zero (by omega), h]; rfl
  · rw [streamTail_of_ne_zero (by omega), h]; rfl
  · have hstart : Progress data s.seed 0 s := ⟨rfl, hh, .inl ⟨rfl, hp⟩⟩
    exact issuedOps_of_progress (by omega) (Nat.zero_le _) hstart

/-! ## A transaction without host moves (R104, R105) -/

theorem State.finished_frame (s : State) (h : Word) : s.finished h =
    { s with h := (s.finished h).h, off := (s.finished h).off, phase := (s.finished h).phase } := (rfl)

theorem State.absorbed_frame (s : State) (h : Word) (n : Nat) : s.absorbed h n =
    { s with h := (s.absorbed h n).h, off := (s.absorbed h n).off, phase := (s.absorbed h n).phase } := (rfl)

/-- The engine changes H, OFF and PHASE only. -/
theorem engineStep_frame {s t : State} (h : engineStep s = .next t) :
    t = { s with h := t.h, off := t.off, phase := t.phase } := by
  rcases engineStep_eq_next h with ⟨_, rfl⟩ | ⟨_, rfl⟩ | ⟨_, _, rfl⟩ | ⟨_, _, _, _, rfl⟩ |
    ⟨_, _, _, _, _, _, _, rfl⟩
  · rfl
  · rfl
  · exact State.finished_frame _ _
  · exact State.absorbed_frame _ _ _
  · exact State.absorbed_frame _ _ _

/-- n more engine steps take a transaction n steps on. -/
theorem progress_run {data : List Byte} {seed : Word} {k n : Nat} {s : State} (hm : s.moves = [])
    (hk : k + n ≤ stepCount data.length) (h : Progress data seed k s) :
    ∃ t, runs n s = .next t ∧ Progress data seed (k + n) t ∧
      t = { s with h := t.h, off := t.off, phase := t.phase } := by
  induction n generalizing k s with
  | zero => exact ⟨s, rfl, h, rfl⟩
  | succ n ih =>
    obtain ⟨u, hu, hpu, hmu, -⟩ := progress_engine (by omega) h
    obtain ⟨t, ht, hpt, hft⟩ := ih (hmu.trans hm) (by omega) hpu
    refine ⟨t, (runs_succ_of_next n ((step_nil hm).trans hu)).trans ht, ?_, hft.trans ?_⟩
    · rwa [Nat.add_right_comm] at hpt
    · rw [engineStep_frame hu]

/-- An accepted START begins the transaction of the message that MSG holds (46_host_interface.md R124). -/
theorem step_start {s : State} {v : Word} {ms : List Move} (hp : s.phase = .idle ∨ s.phase = .done)
    (hv : v.getLsbD 0 = true) (hm : s.moves = .write 0 v :: ms) : step s = .next (s.withMoves ms).started := by
  have hw : hostWrite 0 v (s.withMoves ms) = .next (writeCtrl v (s.withMoves ms)) := rfl
  have hb : (s.withMoves ms).phase.busy = false := by rcases hp with hp | hp <;> rw [State.withMoves_phase, hp] <;> rfl
  rw [step_cons hm, perform, hw, writeCtrl, if_pos (by rw [hv, hb]; rfl)]

theorem progress_start {s : State} {data : List Byte} (ms : List Move) (h : s.holds data) :
    Progress data s.seed 0 (s.withMoves ms).started :=
  ⟨rfl, h, .inl ⟨rfl, rfl⟩⟩

/-- Settles O53: START, then the step count's engine steps. -/
theorem transactionComputesHash32 : Obligations.TransactionComputesHash32 := by
  intro s data v hp hv hm hh
  obtain ⟨t, ht, hpt, hft⟩ := progress_run (n := stepCount data.length) rfl (by omega) (progress_start [] hh)
  rw [Nat.zero_add] at hpt
  obtain ⟨hdone, hH, hoff⟩ := progress_done hpt
  have hlen : t.len = s.len := by rw [hft]; rfl
  refine ⟨t, ?_, ?_, ?_⟩
  · rw [Nat.add_comm, runs_succ_of_next _ (step_start hp hv hm), ht]
  · rw [hdone, hH, hoff, hlen] at hft
    exact hft
  · rw [hostRead_digest_of_done hdone, hH]

/-- Settles O51: BUSY before the step count, DONE at it and for ever after. -/
theorem transactionTakesItsStepCount : Obligations.TransactionTakesItsStepCount := by
  refine ⟨length_stream, rfl, rfl, fun s data k hp hm hh => ?_⟩
  have hstart : Progress data s.seed 0 s := ⟨rfl, hh, .inl ⟨rfl, hp⟩⟩
  rcases Nat.lt_or_ge k (stepCount data.length) with hk | hk
  · obtain ⟨t, ht, hpt, -⟩ := progress_run (n := k) hm (by omega) hstart
    rw [Nat.zero_add] at hpt
    have hbusy := progress_busy hk hpt
    exact ⟨t, ht, iff_of_false (fun hd => by simp [hd, Phase.busy] at hbusy) (Nat.not_le.2 hk)⟩
  · obtain ⟨t, ht, hpt, hft⟩ := progress_run (n := stepCount data.length) hm (by omega) hstart
    rw [Nat.zero_add] at hpt
    obtain ⟨hd, -, -⟩ := progress_done hpt
    have hmt : t.moves = [] := by rw [hft]; exact hm
    have hstay := runs_of_step_self ((step_nil hmt).trans (engineStep_of_done hd)) (k - stepCount data.length)
    refine ⟨t, ?_, iff_of_true hd hk⟩
    rw [← Nat.add_sub_cancel' hk, runs_add _ ht, hstay]

/-! ## A transaction under interleaving (R104) -/

/-- A move of the engine or a harmless one of the host takes a transaction on by the engine's step, if it is one. -/
theorem progress_move {data : List Byte} {seed : Word} {k : Nat} {m : Move} {s : State}
    (hk : k < stepCount data.length) (h : Progress data seed k s) (hm : m = .engine ∨ m.harmless data.length) :
    ∃ t, perform m s = .next t ∧ Progress data seed (k + [m].count .engine) t ∧ t.moves = s.moves := by
  rcases hm with rfl | hm
  · obtain ⟨t, ht, hpt, hmt, -⟩ := progress_engine hk h
    exact ⟨t, ht, hpt, hmt⟩
  · obtain ⟨t, ht, hpt, hmt, -⟩ := progress_host hk h hm
    have hne : m ≠ .engine := by rintro rfl; exact hm
    exact ⟨t, ht, by rwa [List.count_singleton, if_neg (by simpa using hne)], hmt⟩

/-- Engine and harmless host moves before the last engine step take a transaction on by their engine steps. -/
theorem progress_interleaved {data : List Byte} {seed : Word} {k : Nat} {ms rest : List Move} {s : State}
    (hm : s.moves = ms ++ rest) (hms : ∀ m ∈ ms, m = .engine ∨ m.harmless data.length)
    (hk : k + ms.count .engine < stepCount data.length) (h : Progress data seed k s) :
    ∃ t, runs ms.length s = .next t ∧ Progress data seed (k + ms.count .engine) t ∧ t.moves = rest := by
  induction ms generalizing k s with
  | nil => exact ⟨s, rfl, h, hm⟩
  | cons m ms ih =>
    obtain ⟨u, hu, hpu, hmu⟩ := progress_move (s := s.withMoves (ms ++ rest)) (Nat.lt_of_add_right_lt hk) h
      (hms m List.mem_cons_self)
    have hcount : (m :: ms).count .engine = [m].count .engine + ms.count .engine := by
      rw [← List.count_append]; rfl
    rw [hcount, ← Nat.add_assoc] at hk ⊢
    obtain ⟨t, ht, hpt, hmt⟩ := ih hmu (fun m' hm' => hms m' (List.mem_cons_of_mem m hm')) hk hpu
    exact ⟨t, by rw [List.length_cons, runs_succ_of_next _ ((step_cons hm).trans hu), ht], hpt, hmt⟩

/-- Two states that hold the same message have the same LEN and the same bytes below it. -/
theorem State.holds_unique {s t : State} {data : List Byte} (hs : s.holds data) (ht : t.holds data) :
    t.len = s.len ∧ ∀ j, j < data.length → t.msg.readByte j = s.msg.readByte j := by
  obtain ⟨hls, hbs⟩ := hs
  obtain ⟨hlt, hbt⟩ := ht
  exact ⟨BitVec.eq_of_toNat_eq (hlt.trans hls.symm), fun j hj => (hbt j hj).trans (hbs j hj).symm⟩

/-- Settles O54: START, the interleaved moves, and the engine step that finishes. -/
theorem interleavedTransactionComputesHash32 : Obligations.InterleavedTransactionComputesHash32 := by
  intro s data v ms hp hv hh hms hcount hm
  obtain ⟨u, hu, hpu, hmu⟩ := progress_interleaved (State.started_moves _) hms (by omega)
    (progress_start (ms ++ [.engine]) hh)
  obtain ⟨t, ht, hpt, -⟩ := progress_engine (t := u.withMoves []) (by omega) hpu
  rw [Nat.zero_add, hcount] at hpt
  obtain ⟨hdone, hH, hoff⟩ := progress_done hpt
  obtain ⟨hseed, hht, -⟩ := hpt
  obtain ⟨hlen, hbytes⟩ := State.holds_unique hh hht
  refine ⟨t, ?_, hdone, hH, hoff.trans hlen, hseed, hlen, hbytes, ?_⟩
  · rw [runs_succ_of_next _ (step_start hp hv hm), runs_add 1 hu, runs_succ_of_next 0 ((step_cons hmu).trans ht)]
    rfl
  · rw [hostRead_digest_of_done hdone, hH]

/-! ## The empty message (R109) -/

theorem hash32_nil (seed : Word) : hash32 [] seed = fmix seed :=
  congrArg fmix BitVec.xor_zero

/-- Settles O48: no block, no tail, length 0; the three values by evaluating FMIX. -/
theorem emptyMessageHashesToFmixOfSeed : Obligations.EmptyMessageHashesToFmixOfSeed := by
  refine ⟨hash32_nil, ?_, ?_, ?_⟩ <;> rw [hash32_nil] <;> decide

end Sys2Proof.Machine
end

section
/-! PROOFS. The host interface (46_host_interface.md): what each read returns and each write does, the registers that
are none, the host's truncation of a seed, and that a call of the protocol returns hash32. -/

namespace Sys2Proof.Machine

/-! ## Reads (R121) -/

theorem hostRead_digest_of_not_done {s : State} (hp : s.phase ≠ .done) :
    hostRead 4 s = .next ((s.drawn 1).recorded 4 (Config.freeValue s.freeSource s.freeCount)) := by
  have hr : hostRead 4 s = .next (readDigest 4 s) := rfl
  rw [hr, readDigest, if_neg (mt (Phase.isDone_iff _).1 hp)]

/-- Settles O36: the first four reads by the register's own value, DIGEST by whether PHASE is DONE. -/
theorem hostReadsReturnTheirRegisters : Obligations.HostReadsReturnTheirRegisters := fun _ =>
  ⟨rfl, rfl, rfl, rfl, hostRead_digest_of_done, fun hp => ⟨_, _, hostRead_digest_of_not_done hp⟩⟩

/-! ## Writes (R122, R123, R124) -/

theorem Phase.busy_eq_false_iff (p : Phase) : p.busy = false ↔ p = .idle ∨ p = .done := by
  cases p <;> decide

theorem hostWrite_ctrl (v : Word) (s : State) : hostWrite 0 v s = .next (writeCtrl v s) := (rfl)

theorem hostWrite_status (v : Word) (s : State) : hostWrite 1 v s = .next s := (rfl)

theorem hostWrite_seed (v : Word) (s : State) : hostWrite 2 v s = .next (writeSeed v s) := (rfl)

theorem hostWrite_len (v : Word) (s : State) : hostWrite 3 v s = .next (writeLen v s) := (rfl)

theorem hostWrite_digest (v : Word) (s : State) : hostWrite 4 v s = .next s := (rfl)

theorem hostWrite_seed_of_not_busy (v : Word) {s : State} (hb : s.phase.busy = false) :
    hostWrite 2 v s = .next (s.setSeed v) := by
  rw [hostWrite_seed, writeSeed, hb, if_neg Bool.false_ne_true]

theorem hostWrite_len_of_not_busy (v : Word) {s : State} (hb : s.phase.busy = false) :
    hostWrite 3 v s = .next (s.setLen v) := by
  rw [hostWrite_len, writeLen, hb, if_neg Bool.false_ne_true]

theorem hostWrite_seed_of_busy (v : Word) {s : State} (hb : s.phase.busy = true) : hostWrite 2 v s = .next s := by
  rw [hostWrite_seed, writeSeed, if_pos hb]

theorem hostWrite_len_of_busy (v : Word) {s : State} (hb : s.phase.busy = true) : hostWrite 3 v s = .next s := by
  rw [hostWrite_len, writeLen, if_pos hb]

/-- Settles O37, by whether the engine is BUSY. -/
theorem operandWritesAreDroppedWhileBusy : Obligations.OperandWritesAreDroppedWhileBusy := by
  refine fun s v => ⟨fun hp => ?_, fun hp => ?_⟩
  · have hb := (Phase.busy_eq_false_iff _).2 hp
    exact ⟨hostWrite_seed_of_not_busy v hb, hostWrite_len_of_not_busy v hb⟩
  · have hb := (Phase.busy_iff _).2 hp
    exact ⟨hostWrite_seed_of_busy v hb, hostWrite_len_of_busy v hb⟩

/-- Settles O38: the step takes the write off the list, and the write does nothing. -/
theorem readOnlyRegistersDropWrites : Obligations.ReadOnlyRegistersDropWrites := by
  rintro s v rest (hm | hm)
  · exact (step_cons hm).trans (hostWrite_status v _)
  · exact (step_cons hm).trans (hostWrite_digest v _)

theorem hostWrite_ctrl_of_start {v : Word} {s : State} (hv : v.getLsbD 0 = true) (hb : s.phase.busy = false) :
    hostWrite 0 v s = .next s.started := by
  rw [hostWrite_ctrl, writeCtrl, hv, hb]
  rfl

theorem hostWrite_ctrl_of_no_start {v : Word} {s : State} (h : v.getLsbD 0 = false ∨ s.phase.busy = true) :
    hostWrite 0 v s = .next s := by
  rw [hostWrite_ctrl, writeCtrl, if_neg]
  rw [Bool.and_eq_true, Bool.not_eq_true']
  rintro ⟨hv, hb⟩
  rcases h with h | h
  · exact absurd (h.symm.trans hv) Bool.false_ne_true
  · exact absurd (hb.symm.trans h) Bool.false_ne_true

/-- Settles O39: START by bit 0 and BUSY, and STATUS by PHASE then being INIT. -/
theorem startIsAcceptedWhenNotBusy : Obligations.StartIsAcceptedWhenNotBusy := by
  refine fun s v => ⟨fun hv hp => ⟨?_, State.status_of_busy rfl⟩, fun h => ?_⟩
  · exact hostWrite_ctrl_of_start hv ((Phase.busy_eq_false_iff _).2 hp)
  · exact hostWrite_ctrl_of_no_start (h.imp_right (Phase.busy_iff _).2)

/-! ## The numbers that name no register (R130) -/

/-- Settles O40: from 5 on a number names no register, and an access looks its register up first. -/
theorem noRegisterFiveToSeven : Obligations.NoRegisterFiveToSeven := by
  intro s i v hi
  have hr : hostReg i = none := hostReg_of_gt hi
  exact ⟨by rw [hostRead, hr], by rw [hostWrite, hr]⟩

/-! ## The host's boundary (R127, R128) -/

theorem seedBits_toNat (z : Int) : ((seedBits z).toNat : Int) = z % 2 ^ 32 := by
  rw [seedBits, BitVec.toNat_ofInt, Int.toNat_of_nonneg (Int.emod_nonneg z (by decide))]
  rfl

theorem hostCall_of_lt {data : List Byte} (seed : Option Int) (s : State) (h : data.length < 2 ^ 32) :
    hostCall data seed s = .next (s.withMoves (s.moves ++ callMoves data seed)) :=
  if_pos h

theorem hostCall_of_le {data : List Byte} (seed : Option Int) (s : State) (h : 2 ^ 32 ≤ data.length) :
    hostCall data seed s = .refused .messageTooLong :=
  if_neg (Nat.not_lt.2 h)

/-- Settles O46: the remainder by 2^32 of a two's complement truncation, and the call's check of the length. -/
theorem hostBoundaryTruncatesSeedAndRefusesLength : Obligations.HostBoundaryTruncatesSeedAndRefusesLength :=
  ⟨seedBits_toNat, fun _ seed s => hostCall_of_le seed s, fun _ seed s h => ⟨_, hostCall_of_lt seed s h, rfl⟩⟩

/-! ## Runs of some number of steps -/

/-- Some number of steps leads from one state to the other. -/
def State.Reaches (s t : State) : Prop := ∃ n, runs n s = .next t

theorem State.Reaches.refl (s : State) : s.Reaches s := ⟨0, rfl⟩

theorem State.Reaches.trans {s t u : State} (h : s.Reaches t) (h' : t.Reaches u) : s.Reaches u := by
  obtain ⟨n, hn⟩ := h
  obtain ⟨m, hm⟩ := h'
  exact ⟨n + m, (runs_add m hn).trans hm⟩

theorem State.reaches_of_step {s t : State} (h : step s = .next t) : s.Reaches t :=
  ⟨1, runs_succ_of_next 0 h⟩

/-- The first of the moves to come is performed. -/
theorem State.reaches_of_perform {s t : State} {m : Move} {ms : List Move} (hm : s.moves = m :: ms)
    (h : perform m (s.withMoves ms) = .next t) : s.Reaches t :=
  State.reaches_of_step ((step_cons hm).trans h)

/-! ## The steps of the call protocol (R129) -/

/-- Step 1: while the engine is not BUSY, the first read of STATUS ends the poll. -/
theorem reaches_free {s : State} {ms : List Move} (hm : s.moves = .waitFree :: ms) (hb : s.phase.busy = false) :
    s.Reaches ((s.withMoves ms).recorded 1 s.status) := by
  refine State.reaches_of_perform hm ?_
  rw [perform, State.withMoves_phase, hb]
  rfl

theorem hostPlace_of_not_busy (o : Word) (b : Byte) {s : State} (hb : s.phase.busy = false) :
    hostPlace o b s = .next (s.placed o b) := by
  rw [hostPlace, hb, Bool.false_and, if_neg Bool.false_ne_true]

/-- Step 2: while the engine is not BUSY, the bytes stand at rising offsets and those below are left alone. -/
theorem reaches_placed {s : State} {o : Nat} {bs : List Byte} {ms : List Move} (hm : s.moves = placeFrom o bs ++ ms)
    (hb : s.phase.busy = false) (ho : o + bs.length ≤ 2 ^ 32) :
    ∃ m : Memory, s.Reaches ((s.withMsg m).withMoves ms) ∧ (∀ j, j < o → m.readByte j = s.msg.readByte j) ∧
      ∀ j (hj : j < bs.length), m.readByte (o + j) = some bs[j] := by
  induction bs generalizing s o with
  | nil =>
    refine ⟨s.msg, ?_, fun _ _ => rfl, fun j hj => absurd hj (Nat.not_lt_zero j)⟩
    have hs : (s.withMsg s.msg).withMoves ms = s := State.withMoves_moves_self hm
    rw [hs]
    exact State.Reaches.refl s
  | cons b bs ih =>
    rw [List.length_cons] at ho
    have hoff : (BitVec.ofNat 32 o).toNat = o := by rw [BitVec.toNat_ofNat]; omega
    have hstep : s.Reaches ((s.withMoves (placeFrom (o + 1) bs ++ ms)).placed (BitVec.ofNat 32 o) b) :=
      State.reaches_of_perform hm (hostPlace_of_not_busy _ b hb)
    obtain ⟨m, hr, hbelow, hbytes⟩ :=
      ih (s := (s.withMoves (placeFrom (o + 1) bs ++ ms)).placed (BitVec.ofNat 32 o) b) (o := o + 1) rfl hb (by omega)
    rw [State.placed_msg, hoff] at hbelow
    refine ⟨m, hstep.trans hr, fun j hj => ?_, fun j hj => ?_⟩
    · rw [hbelow j (by omega), Memory.readByte_writeByte_other _ _ (Nat.ne_of_lt hj)]
      rfl
    · cases j with
      | zero => exact (hbelow o (Nat.lt_succ_self o)).trans (Memory.readByte_writeByte_same _ _ _)
      | succ j =>
        rw [← Nat.succ_add_eq_add_succ]
        exact hbytes j (Nat.lt_of_succ_lt_succ hj)

/-- Step 3: SEED takes the seed's low 32 bits, or keeps what it holds (R125). -/
theorem reaches_seed {s : State} {seed : Option Int} {ms : List Move} (hm : s.moves = seedMoves seed ++ ms)
    (hb : s.phase.busy = false) : s.Reaches ((s.withMoves ms).setSeed (seed.elim s.seed seedBits)) := by
  cases seed with
  | none =>
    have hs : (s.withMoves ms).setSeed s.seed = s := State.withMoves_moves_self hm
    rw [Option.elim_none, hs]
    exact State.Reaches.refl s
  | some z => exact State.reaches_of_perform hm (hostWrite_seed_of_not_busy (seedBits z) hb)

/-- Steps 4 and 5: LEN is written and START accepted; with the bytes in place the transaction then begins. -/
theorem reaches_progress {s : State} {data : List Byte} {ms : List Move}
    (hm : s.moves = .write 3 (BitVec.ofNat 32 data.length) :: .write 0 1 :: ms) (hb : s.phase.busy = false)
    (hlen : data.length < 2 ^ 32) (hbytes : ∀ j (hj : j < data.length), s.msg.readByte j = some data[j]) :
    ∃ t, s.Reaches t ∧ Progress data s.seed 0 t ∧ t.moves = ms := by
  have hlenStep : s.Reaches ((s.withMoves (.write 0 1 :: ms)).setLen (BitVec.ofNat 32 data.length)) :=
    State.reaches_of_perform hm (hostWrite_len_of_not_busy _ hb)
  have hstart := State.reaches_of_step
    (step_start ((Phase.busy_eq_false_iff _).1 hb) (show (1 : Word).getLsbD 0 = true by decide)
      (s := (s.withMoves (.write 0 1 :: ms)).setLen (BitVec.ofNat 32 data.length)) rfl)
  refine ⟨_, hlenStep.trans hstart, progress_start ms ⟨?_, hbytes⟩, rfl⟩
  exact (BitVec.toNat_ofNat _ _).trans (Nat.mod_eq_of_lt hlen)

/-- Step 6: every read of STATUS before DONE lets the engine take one step, so the poll ends with the transaction. -/
theorem progress_poll {data : List Byte} {seed : Word} {k n : Nat} {s : State} {ms : List Move}
    (hm : s.moves = .waitDone :: ms) (hk : k + n = stepCount data.length) (h : Progress data seed k s) :
    ∃ t, s.Reaches t ∧ Progress data seed (stepCount data.length) t ∧ t.moves = ms := by
  induction n generalizing k s with
  | zero =>
    rw [Nat.add_zero] at hk
    subst hk
    obtain ⟨hdone, -, -⟩ := progress_done h
    refine ⟨(s.withMoves ms).recorded 1 s.status, State.reaches_of_perform hm ?_, h, rfl⟩
    rw [perform, State.withMoves_phase, hdone]
    rfl
  | succ n ih =>
    have hbusy := progress_busy (by omega) h
    have hnot : s.phase.isDone = false := by
      rcases (Phase.busy_iff _).1 hbusy with hp | hp <;> rw [hp] <;> rfl
    have hpoll : s.Reaches (((s.withMoves ms).recorded 1 s.status).withMoves (.engine :: .waitDone :: ms)) := by
      refine State.reaches_of_perform hm ?_
      rw [perform, State.withMoves_phase, hnot]
      rfl
    obtain ⟨u, hu, hpu, hmu, -⟩ :=
      progress_engine (t := ((s.withMoves ms).recorded 1 s.status).withMoves (.waitDone :: ms)) (by omega) h
    obtain ⟨t, ht, hpt, hmt⟩ := ih hmu (by omega) hpu
    exact ⟨t, (hpoll.trans (State.reaches_of_perform rfl hu)).trans ht, hpt, hmt⟩

/-- The moves of the protocol from step 4 on. -/
def startMoves (data : List Byte) : List Move :=
  [.write 3 (BitVec.ofNat 32 data.length), .write 0 1, .waitDone, .read 4]

theorem callMoves_eq (data : List Byte) (seed : Option Int) :
    callMoves data seed = .waitFree :: (placeFrom 0 data ++ (seedMoves seed ++ startMoves data)) := by
  rw [callMoves, List.append_assoc]
  rfl

/-- Settles O55, by the steps of the protocol one after another. -/
theorem callReturnsHash32 : Obligations.CallReturnsHash32 := by
  intro s data seed hb hm hlen
  have hfree := reaches_free (s := s.withMoves (callMoves data seed)) (callMoves_eq data seed) hb
  obtain ⟨m, hplaced, -, hbytes⟩ :=
    reaches_placed (s := (s.recorded 1 s.status).withMoves (placeFrom 0 data ++ (seedMoves seed ++ startMoves data)))
      rfl hb (by omega)
  simp only [Nat.zero_add] at hbytes
  have hseed := reaches_seed
    (s := ((s.recorded 1 s.status).withMsg m).withMoves (seedMoves seed ++ startMoves data)) rfl hb
  obtain ⟨u, hu, hpu, hmu⟩ := reaches_progress (s := (((s.recorded 1 s.status).withMsg m).withMoves
    (startMoves data)).setSeed (seed.elim s.seed seedBits)) rfl hb hlen hbytes
  obtain ⟨v, hv, hpv, hmv⟩ := progress_poll hmu (Nat.zero_add _) hpu
  obtain ⟨hdone, hH, -⟩ := progress_done hpv
  obtain ⟨-, hholds, -⟩ := hpv
  have hread : v.Reaches ((v.withMoves []).recorded 4 v.h) :=
    State.reaches_of_perform hmv (hostRead_digest_of_done hdone)
  obtain ⟨n, hn⟩ := ((((hfree.trans hplaced).trans hseed).trans hu).trans hv).trans hread
  refine ⟨_, n, (v.withMoves []).recorded 4 v.h, hostCall_of_lt seed s hlen, ?_, rfl, hdone,
    congrArg (fun h => some (4, h)) hH, hholds⟩
  rwa [hm]

end Sys2Proof.Machine
end

section
/-! PROOFS. Faults and interference (60_exceptions.md): a running transaction and the host's moves, and the engines of
a platform. -/

namespace Sys2Proof.Machine

/-! ## The host while a transaction runs (R143, R152) -/

/-- `t` stands in the transaction of `s` where `s` stands: the engine's registers and the message bytes are the same. -/
def State.SameTransaction (s t : State) : Prop :=
  t.h = s.h ∧ t.off = s.off ∧ t.phase = s.phase ∧ t.seed = s.seed ∧ t.len = s.len ∧ s.sameMessage t

/-- A byte placed at LEN or above is none of the message. -/
theorem State.sameMessage_placed {s : State} {o : Word} (b : Byte) (h : s.len.toNat ≤ o.toNat) :
    s.sameMessage (s.placed o b) := fun _ hj =>
  (Memory.readByte_writeByte_other _ b (Nat.ne_of_lt (Nat.lt_of_lt_of_le hj h))).symm

/-- Settles O43, by the move that was taken: START and the operand writes are dropped while BUSY, and a byte is placed
at LEN or above. -/
theorem hostCannotDisturbATransaction : Obligations.HostCannotDisturbATransaction := by
  intro s t m rest hb hm hengine hreset h
  have hbusy : s.phase.busy ≠ false := by rw [hb]; decide
  change s.SameTransaction t
  rcases step_eq_next h with ⟨ms, hfirst, _⟩ | ⟨i, v, n, ms, _, rfl⟩ |
    ⟨i, v, ms, _, rfl | ⟨_, _, hnb, _⟩ | ⟨_, hnb, _⟩ | ⟨_, hnb, _⟩⟩ | ⟨o, b, ms, _, hc, rfl⟩ | ⟨ms, hr, _⟩ |
    ⟨ms, m', ms', _, _, rfl⟩
  · simp [hm, hengine] at hfirst
  · exact ⟨rfl, rfl, rfl, rfl, rfl, fun _ _ => rfl⟩
  · exact ⟨rfl, rfl, rfl, rfl, rfl, fun _ _ => rfl⟩
  · exact absurd hnb hbusy
  · exact absurd hnb hbusy
  · exact absurd hnb hbusy
  · exact ⟨rfl, rfl, rfl, rfl, rfl, State.sameMessage_placed b (hc hb)⟩
  · simp [hm, hreset] at hr
  · exact ⟨rfl, rfl, rfl, rfl, rfl, fun _ _ => rfl⟩

/-! ## A host access and an engine step in either order (R144) -/

/-- A harmless host move gives a next state, BUSY or not, and leaves H, OFF and the moves to come. -/
theorem perform_harmless {m : Move} {s : State} (hm : m.harmless s.len.toNat) :
    ∃ t, perform m s = .next t ∧ t.h = s.h ∧ t.off = s.off ∧ t.moves = s.moves := by
  cases m with
  | read i =>
    rcases hostRead_cases i s with ⟨v, n, e⟩ | e
    · exact ⟨_, e, rfl, rfl, rfl⟩
    · exact absurd e (hostRead_ne_refused s hm)
  | write i v =>
    rcases hostWrite_cases i v s with e | ⟨_, _, _, e⟩ | ⟨_, _, e⟩ | ⟨_, _, e⟩ | e
    · exact ⟨_, e, rfl, rfl, rfl⟩
    · exact ⟨_, e, rfl, rfl, rfl⟩
    · exact ⟨_, e, rfl, rfl, rfl⟩
    · exact ⟨_, e, rfl, rfl, rfl⟩
    · exact absurd e (hostWrite_ne_refused v s hm)
  | place o b =>
    rcases hostPlace_cases o b s with ⟨_, e⟩ | ⟨_, hlt, _⟩
    · exact ⟨_, e, rfl, rfl, rfl⟩
    · exact absurd hlt (Nat.not_lt.2 hm)
  | engine | reset | waitFree | waitDone => exact hm.elim

/-- The engine's registers of `s` with the host's side of `r`: MSG and the model's own bookkeeping. -/
def State.withHostOf (s r : State) : State :=
  { s with msg := r.msg, moves := r.moves, reads := r.reads, freeCount := r.freeCount, freeSource := r.freeSource }

theorem State.SameTransaction.eq_withHostOf {s t : State} (h : s.SameTransaction t) : t = s.withHostOf t := by
  obtain ⟨hh, ho, hp, hs, hl, -⟩ := h
  rw [withHostOf, ← hh, ← ho, ← hp, ← hs, ← hl]

/-- An operation does the same whatever the host's side holds. -/
theorem exec_withHostOf {i : Instr} {s t : State} (r : State) (h : exec i s = .next t) :
    exec i (s.withHostOf r) = .next (t.withHostOf r) := by
  rcases exec_eq_next h with ⟨v, rfl, rfl⟩ | ⟨v, rfl, rfl⟩ | ⟨n, v, hi, hv, rfl⟩ | ⟨v, rfl, rfl⟩
  · rfl
  · rfl
  · have hz : tailZeros n v = true := (tailZeros_iff n v).2 hv
    rcases hi with ⟨rfl, rfl⟩ | ⟨rfl, rfl⟩ | ⟨rfl, rfl⟩ <;> exact if_pos hz
  · rfl

/-- The engine's step in the same transaction is the same, whatever else the host has done. -/
theorem engineStep_of_sameTransaction {s t s' : State} (h : s.SameTransaction t) (he : engineStep s = .next s') :
    engineStep t = .next (s'.withHostOf t) := by
  have ht : t = s.withHostOf t := h.eq_withHostOf
  obtain ⟨-, -, -, -, -, hmsg⟩ := h
  have hword : nextWord (s.withHostOf t) = nextWord s := nextWord_withMsg (m := t.msg) hmsg
  have hstep := engineStep_commutes (f := (State.withHostOf · t)) hword (exec_withHostOf t) he
  rwa [← ht] at hstep

/-- Two moves performed one after the other are a run of two steps. -/
theorem runs_two {s u t : State} {m m' : Move} (hm : s.moves = [m, m'])
    (h : perform m (s.withMoves [m']) = .next u) (hu : u.moves = [m'])
    (h' : perform m' (u.withMoves []) = .next t) : runs 2 s = .next t := by
  rw [runs_succ_of_next 1 ((step_cons hm).trans h), runs_succ_of_next 0 ((step_cons hu).trans h')]
  rfl

/-- Settles O44: after the engine's step the host's move leaves H and OFF, and before it the host's move leaves the
transaction, so that the engine's step is the same. -/
theorem hostMoveAndEngineStepCommuteOnH : Obligations.HostMoveAndEngineStepCommuteOnH := by
  intro s m hi hb hm
  obtain ⟨-, ho⟩ := hi
  have hengine : m ≠ .engine := by rintro rfl; exact hm
  have hreset : m ≠ .reset := by rintro rfl; exact hm
  obtain ⟨a, ha⟩ := engineStep_total (s := s.withMoves [m]) fun hp => And.left (ho hp)
  have hframe := engineStep_frame ha
  have hma : a.moves = [m] := by rw [hframe]; rfl
  have hla : a.len = s.len := by rw [hframe]; rfl
  obtain ⟨t, ht, hth, hto, -⟩ := perform_harmless (s := a.withMoves []) (m := m) (by rwa [State.withMoves_len, hla])
  obtain ⟨b, hbm, -, -, hmb⟩ := perform_harmless (s := s.withMoves [.engine]) hm
  have hsame : (s.withMoves [m]).SameTransaction (b.withMoves []) :=
    hostCannotDisturbATransaction (s.withMoves [m, .engine]) b m [.engine] hb rfl hengine hreset hbm
  have hu := engineStep_of_sameTransaction hsame ha
  exact ⟨t, _, runs_two rfl ha hma ht, runs_two rfl hbm hmb hu, hth, hto⟩

/-! ## The engines of a platform (R149) -/

/-- Everything a platform's step can do: nothing, if the number names no engine, or that engine's own step. -/
theorem Platform.step_eq_next {p q : Platform} {k : Nat} (h : p.step k = .next q) :
    (p.engines[k]? = none ∧ q = p) ∨
      ∃ s t, p.engines[k]? = some s ∧ Machine.step s = .next t ∧ q = ⟨p.engines.set k t⟩ := by
  unfold Platform.step at h
  cases hk : p.engines[k]? with
  | none =>
    rw [hk] at h
    exact .inl ⟨rfl, (Host.Outcome.next.inj h).symm⟩
  | some s =>
    simp only [hk] at h
    cases hs : Machine.step s with
    | next t =>
      rw [hs] at h
      exact .inr ⟨s, t, rfl, hs, (Host.Outcome.next.inj h).symm⟩
    | fault e => simp [hs] at h
    | refused e => simp [hs] at h

/-- Settles O47, by what a platform's step can do. -/
theorem enginesAreIndependent : Obligations.EnginesAreIndependent := by
  intro p q k h
  rcases Platform.step_eq_next h with ⟨hk, rfl⟩ | ⟨s, t, hk, hs, rfl⟩
  · exact ⟨rfl, fun _ _ => rfl, fun s hs => nomatch hk.symm.trans hs⟩
  · obtain ⟨hlt, -⟩ := List.getElem?_eq_some_iff.1 hk
    refine ⟨List.length_set, fun j hj => List.getElem?_set_ne hj.symm, fun s' hs' => ?_⟩
    have hss : s' = s := Option.some.inj (hs'.symm.trans hk)
    exact ⟨t, hss ▸ hs, List.getElem?_set_self hlt⟩

/-- The engines after reset are numbered from 0, and each draws from the source of its number. -/
theorem Platform.reset_freeSources : Platform.reset.engines.map State.freeSource = List.range Config.nEngines :=
  List.map_map.trans (List.map_id _)

/-- Settles O57: after reset the sources are the engines' numbers, and no step of an engine changes its source. -/
theorem enginesNeverShareASourceOfFreeValues : Obligations.EnginesNeverShareASourceOfFreeValues := by
  refine ⟨by rw [Platform.reset_freeSources]; exact List.nodup_range, fun p q k h => ?_⟩
  rcases Platform.step_eq_next h with ⟨_, rfl⟩ | ⟨s, t, hk, hs, rfl⟩
  · rfl
  · obtain ⟨hlt, hget⟩ := List.getElem?_eq_some_iff.1 hk
    have hsource : t.freeSource = (p.engines.map State.freeSource)[k]'(by simpa using hlt) := by
      rw [List.getElem_map, hget, step_freeSource hs]
    rw [List.map_set, hsource, List.set_getElem_self]

end Sys2Proof.Machine
end

section
/-! PROOFS. Reset (70_reset_and_hazards.md): what the reset event leaves, and the engine at rest in IDLE. -/

namespace Sys2Proof.Machine

/-! ## Reset in any state (R160) -/

/-- A reset that is the next move happens in one step, whatever the engine is doing. -/
theorem step_reset {s : State} {rest : List Move} (hm : s.moves = .reset :: rest) :
    step s = .next (s.withMoves rest).resetEvent :=
  step_cons hm

/-- With no move to come the engine waits in IDLE for ever. -/
theorem runs_of_idle {s : State} (hp : s.phase = .idle) (hm : s.moves = []) (n : Nat) : runs n s = .next s :=
  runs_of_step_self ((step_nil hm).trans (engineStep_of_idle hp)) n

/-- Settles O41: the step is the reset event's, field by field, and it leaves the engine in IDLE, where it waits. -/
theorem resetAbandonsEverything : Obligations.ResetAbandonsEverything := by
  intro s rest hm
  have hidle : (s.withMoves rest).resetEvent.phase = .idle := State.resetEvent_phase _
  exact ⟨_, step_reset hm, hidle, State.resetEvent_seed _, State.resetEvent_len _,
    State.status_of_idle hidle, State.resetEvent_moves _, fun _ => rfl, State.resetEvent_reads _,
    runs_of_idle hidle rfl⟩

end Sys2Proof.Machine
end
